-- ==== Sys2Proof/Word.lean ====
section
/-! DEFINITION. The word of the machine (00_scope R2, R5): 16 bits, for registers, cells, addresses and instructions. -/

namespace Sys2Proof

/-- A 16-bit word (R2 WORD, R5). -/
abbrev Word := BitVec 16

/-- An 8-bit trap vector (R53 trapvect8). -/
abbrev TrapVector := BitVec 8

end Sys2Proof
end

