-- ==== Sys2Proof/Config.lean ====
section
/-! DEFINITION. What the spec leaves open: the three named parameters of 00_scope R2 and the free answers of the keyboard. -/

namespace Sys2Proof

/-- KBSR_READY_WRITE (R2, R34): how a poll that found a key writes the ready bit. -/
inductive ReadyWrite where
  /-- the cell becomes 0x8000 (the default) -/
  | assign
  /-- bit 15 is OR-ed into the cell -/
  | or
  deriving DecidableEq, Repr

/-- The open parameters of R2. They are arguments of the model, carried by `State` so that a statement about every state
holds for every value of them; no step changes them (DESIGN CHOICE, log 4). -/
structure Params where
  /-- the vectors on which TRAP_WIRED is false (R120) -/
  unwired : List TrapVector
  /-- HALT_VECTORS (R140) -/
  haltVectors : List TrapVector
  /-- KBSR_READY_WRITE (R34) -/
  kbsrReadyWrite : ReadyWrite
  deriving DecidableEq, Repr

/-- The spec's defaults (R2): every vector wired, no halt vector, `assign`. -/
def Params.default : Params := ⟨[], [], .assign⟩

/-- The answer of the keyboard adapter to the poll of this number, where the state lists no answer: a free value
(R134: "a free 16-bit value"), with no body, so that nothing can be proved of it (log 2). -/
opaque Config.pollAnswer : Nat → Word

end Sys2Proof
end

