-- ==== Sys2Proof/Syntax.lean ====
section
/-! DEFINITION. The instructions: one constructor per row of spec/opcode_table.json, operands already decoded. -/

namespace Sys2Proof

/-- The eight general registers (10_state R10). -/
inductive Reg where
  | r0 | r1 | r2 | r3 | r4 | r5 | r6 | r7
  deriving DecidableEq, Repr

/-- The instructions of 30_encoding R51 and R52. A register field is a `Reg` (R54); an immediate or offset field is the
unsigned number of its own width that R53 masks out of the word; bits that R56 calls ignored are not kept. RTI and RES have
no operand, but the fault they raise records the instruction word (R121, R122), so they carry it. -/
inductive Instr where
  /-- ADD, register form (R80) -/
  | addReg (dr sr1 sr2 : Reg)
  /-- ADD, immediate form (R81) -/
  | addImm (dr sr1 : Reg) (imm5 : BitVec 5)
  /-- AND, register form (R82) -/
  | andReg (dr sr1 sr2 : Reg)
  /-- AND, immediate form (R83) -/
  | andImm (dr sr1 : Reg) (imm5 : BitVec 5)
  /-- NOT (R84) -/
  | not (dr sr : Reg)
  /-- BR with its three condition bits (R90) -/
  | br (n z p : Bool) (off9 : BitVec 9)
  /-- JMP; RET is `jmp r7` (R91) -/
  | jmp (base : Reg)
  /-- JSR (R92) -/
  | jsr (off11 : BitVec 11)
  /-- JSRR (R93) -/
  | jsrr (base : Reg)
  /-- LD (R100) -/
  | ld (dr : Reg) (off9 : BitVec 9)
  /-- LDI (R101) -/
  | ldi (dr : Reg) (off9 : BitVec 9)
  /-- LDR (R102) -/
  | ldr (dr base : Reg) (off6 : BitVec 6)
  /-- LEA (R103) -/
  | lea (dr : Reg) (off9 : BitVec 9)
  /-- ST (R110) -/
  | st (sr : Reg) (off9 : BitVec 9)
  /-- STI (R111) -/
  | sti (sr : Reg) (off9 : BitVec 9)
  /-- STR (R112) -/
  | str (sr base : Reg) (off6 : BitVec 6)
  /-- TRAP (R120) -/
  | trap (vect8 : TrapVector)
  /-- RTI, with the whole instruction word (R121) -/
  | rti (ir : Word)
  /-- RES, the reserved opcode, with the whole instruction word (R122) -/
  | res (ir : Word)
  deriving DecidableEq, Repr

end Sys2Proof
end

