-- ==== Sys2Proof/WellFormed.lean ====
section
/-! DEFINITION. Well-formed instructions: the terms that stand for some instruction word. Every field of the other
constructors has the width R53 and R54 give it, so only the words carried by RTI and RES need a check. -/

namespace Sys2Proof

/-- RTI carries a word whose bits 15:12 are 1000, RES one whose bits 15:12 are 1101 (30_encoding R52). -/
def Instr.wf : Instr → Bool
  | .rti ir => ir.extractLsb' 12 4 = 0b1000#4
  | .res ir => ir.extractLsb' 12 4 = 0b1101#4
  | .addReg _ _ _ | .addImm _ _ _ | .andReg _ _ _ | .andImm _ _ _ | .not _ _ => true
  | .br _ _ _ _ | .jmp _ | .jsr _ | .jsrr _ => true
  | .ld _ _ | .ldi _ _ | .ldr _ _ _ | .lea _ _ | .st _ _ | .sti _ _ | .str _ _ _ | .trap _ => true

end Sys2Proof
end

