-- ==== Sys2Proof/Decode.lean ====
section
/-! DEFINITION. The decoder, the encoder and the opcode table (30_encoding R50 to R57, spec/opcode_table.json).
Decoding a word is total (R57): the only input the decoder rejects is the absence of a word. -/

namespace Sys2Proof

/-- The register a 3-bit field names (R54): 000 is R0, ..., 111 is R7. -/
def Reg.ofBits (b : BitVec 3) : Reg :=
  match b.getLsbD 2, b.getLsbD 1, b.getLsbD 0 with
  | false, false, false => .r0
  | false, false, true => .r1
  | false, true, false => .r2
  | false, true, true => .r3
  | true, false, false => .r4
  | true, false, true => .r5
  | true, true, false => .r6
  | true, true, true => .r7

/-- The 3-bit field that names a register (R54). -/
def Reg.toBits : Reg → BitVec 3
  | .r0 => 0b000#3
  | .r1 => 0b001#3
  | .r2 => 0b010#3
  | .r3 => 0b011#3
  | .r4 => 0b100#3
  | .r5 => 0b101#3
  | .r6 => 0b110#3
  | .r7 => 0b111#3

/-- The register named by bits `lo + 2 : lo` of an instruction word (R54). -/
def regAt (ir : Word) (lo : Nat) : Reg := Reg.ofBits (ir.extractLsb' lo 3)

/-- The instruction of a word: dispatch on bits 15:12 (R52, R73), then on bit 5 (ADD, AND) or bit 11 (JSR, JSRR) (R55);
fields as R51, R53 and R54 place them. -/
def decodeWord (ir : Word) : Instr :=
  match ir.getLsbD 15, ir.getLsbD 14, ir.getLsbD 13, ir.getLsbD 12 with
  | false, false, false, false => .br (ir.getLsbD 11) (ir.getLsbD 10) (ir.getLsbD 9) (ir.extractLsb' 0 9)
  | false, false, false, true =>
    if ir.getLsbD 5 then .addImm (regAt ir 9) (regAt ir 6) (ir.extractLsb' 0 5)
    else .addReg (regAt ir 9) (regAt ir 6) (regAt ir 0)
  | false, false, true, false => .ld (regAt ir 9) (ir.extractLsb' 0 9)
  | false, false, true, true => .st (regAt ir 9) (ir.extractLsb' 0 9)
  | false, true, false, false =>
    if ir.getLsbD 11 then .jsr (ir.extractLsb' 0 11) else .jsrr (regAt ir 6)
  | false, true, false, true =>
    if ir.getLsbD 5 then .andImm (regAt ir 9) (regAt ir 6) (ir.extractLsb' 0 5)
    else .andReg (regAt ir 9) (regAt ir 6) (regAt ir 0)
  | false, true, true, false => .ldr (regAt ir 9) (regAt ir 6) (ir.extractLsb' 0 6)
  | false, true, true, true => .str (regAt ir 9) (regAt ir 6) (ir.extractLsb' 0 6)
  | true, false, false, false => .rti ir
  | true, false, false, true => .not (regAt ir 9) (regAt ir 6)
  | true, false, true, false => .ldi (regAt ir 9) (ir.extractLsb' 0 9)
  | true, false, true, true => .sti (regAt ir 9) (ir.extractLsb' 0 9)
  | true, true, false, false => .jmp (regAt ir 6)
  | true, true, false, true => .res ir
  | true, true, true, false => .lea (regAt ir 9) (ir.extractLsb' 0 9)
  | true, true, true, true => .trap (ir.extractLsb' 0 8)

/-- Why a sequence of words holds no instruction. -/
inductive DecodeReject where
  /-- there is no word to decode; every word is an instruction (R57) -/
  | noWord
  deriving DecidableEq, Repr

/-- The first instruction of a sequence of words, and the words after it: an instruction is exactly one word (R50). -/
def decode : List Word → Except DecodeReject (Instr × List Word)
  | [] => .error .noWord
  | ir :: rest => .ok (decodeWord ir, rest)

/-- The word of an instruction, from the whole-word pictures of R51. An ignored bit is written as the customary assembler
fills it (R56, R59): NOT bits 5:0 are ones, all others 0 (PRESUMED with the spec, log 6). -/
def encode : Instr → Word
  | .addReg dr sr1 sr2 => 0b0001#4 ++ (dr.toBits ++ (sr1.toBits ++ (0b0#1 ++ (0b00#2 ++ sr2.toBits))))
  | .addImm dr sr1 imm5 => 0b0001#4 ++ (dr.toBits ++ (sr1.toBits ++ (0b1#1 ++ imm5)))
  | .andReg dr sr1 sr2 => 0b0101#4 ++ (dr.toBits ++ (sr1.toBits ++ (0b0#1 ++ (0b00#2 ++ sr2.toBits))))
  | .andImm dr sr1 imm5 => 0b0101#4 ++ (dr.toBits ++ (sr1.toBits ++ (0b1#1 ++ imm5)))
  | .not dr sr => 0b1001#4 ++ (dr.toBits ++ (sr.toBits ++ 0b111111#6))
  | .br n z p off9 => 0b0000#4 ++ (BitVec.ofBool n ++ (BitVec.ofBool z ++ (BitVec.ofBool p ++ off9)))
  | .jmp base => 0b1100#4 ++ (0b000#3 ++ (base.toBits ++ 0b000000#6))
  | .jsr off11 => 0b0100#4 ++ (0b1#1 ++ off11)
  | .jsrr base => 0b0100#4 ++ (0b0#1 ++ (0b00#2 ++ (base.toBits ++ 0b000000#6)))
  | .ld dr off9 => 0b0010#4 ++ (dr.toBits ++ off9)
  | .ldi dr off9 => 0b1010#4 ++ (dr.toBits ++ off9)
  | .ldr dr base off6 => 0b0110#4 ++ (dr.toBits ++ (base.toBits ++ off6))
  | .lea dr off9 => 0b1110#4 ++ (dr.toBits ++ off9)
  | .st sr off9 => 0b0011#4 ++ (sr.toBits ++ off9)
  | .sti sr off9 => 0b1011#4 ++ (sr.toBits ++ off9)
  | .str sr base off6 => 0b0111#4 ++ (sr.toBits ++ (base.toBits ++ off6))
  | .trap vect8 => 0b1111#4 ++ (0b0000#4 ++ vect8)
  | .rti ir => ir
  | .res ir => ir

/-- The rows of spec/opcode_table.json: mnemonic and format (the two columns that name a row). -/
inductive RowName where
  | addReg | addImm | andReg | andImm | not | br | jmp | jsr | jsrr | ld | ldi | ldr | lea | st | sti | str | trap | rti | res
  deriving DecidableEq, Repr

/-- One row of the opcode table: a word belongs to it if its masked bits equal the pattern. -/
structure Row where
  name : RowName
  mask : Word
  pattern : Word
  /-- the bits the layout names, opcode and mode bits included; the others are ignored (R51, R56) -/
  examined : Word
  deriving DecidableEq, Repr

/-- A word belongs to a row. -/
def Row.holds (r : Row) (ir : Word) : Bool := (ir &&& r.mask) = r.pattern

/-- spec/opcode_table.json, its "mask" and "match" columns; the examined bits are its "encoding" column less the x's. -/
def opcodeTable : List Row :=
  [⟨.addReg, 0xF020#16, 0x1000#16, 0xFFE7#16⟩,
   ⟨.addImm, 0xF020#16, 0x1020#16, 0xFFFF#16⟩,
   ⟨.andReg, 0xF020#16, 0x5000#16, 0xFFE7#16⟩,
   ⟨.andImm, 0xF020#16, 0x5020#16, 0xFFFF#16⟩,
   ⟨.not, 0xF000#16, 0x9000#16, 0xFFC0#16⟩,
   ⟨.br, 0xF000#16, 0x0000#16, 0xFFFF#16⟩,
   ⟨.jmp, 0xF000#16, 0xC000#16, 0xF1C0#16⟩,
   ⟨.jsr, 0xF800#16, 0x4800#16, 0xFFFF#16⟩,
   ⟨.jsrr, 0xF800#16, 0x4000#16, 0xF9C0#16⟩] ++
  [⟨.ld, 0xF000#16, 0x2000#16, 0xFFFF#16⟩,
   ⟨.ldi, 0xF000#16, 0xA000#16, 0xFFFF#16⟩,
   ⟨.ldr, 0xF000#16, 0x6000#16, 0xFFFF#16⟩,
   ⟨.lea, 0xF000#16, 0xE000#16, 0xFFFF#16⟩,
   ⟨.st, 0xF000#16, 0x3000#16, 0xFFFF#16⟩,
   ⟨.sti, 0xF000#16, 0xB000#16, 0xFFFF#16⟩,
   ⟨.str, 0xF000#16, 0x7000#16, 0xFFFF#16⟩,
   ⟨.trap, 0xF000#16, 0xF000#16, 0xF0FF#16⟩,
   ⟨.rti, 0xF000#16, 0x8000#16, 0xF000#16⟩,
   ⟨.res, 0xF000#16, 0xD000#16, 0xF000#16⟩]

/-- The row an instruction stands for. -/
def Instr.rowName : Instr → RowName
  | .addReg _ _ _ => .addReg
  | .addImm _ _ _ => .addImm
  | .andReg _ _ _ => .andReg
  | .andImm _ _ _ => .andImm
  | .not _ _ => .not
  | .br _ _ _ _ => .br
  | .jmp _ => .jmp
  | .jsr _ => .jsr
  | .jsrr _ => .jsrr
  | .ld _ _ => .ld
  | .ldi _ _ => .ldi
  | .ldr _ _ _ => .ldr
  | .lea _ _ => .lea
  | .st _ _ => .st
  | .sti _ _ => .sti
  | .str _ _ _ => .str
  | .trap _ => .trap
  | .rti _ => .rti
  | .res _ => .res

/-- The words of an instruction whose bits are `w`, `nbits` of them: one word (R50, R38), or none where `nbits` is more than
one word holds or `w` does not fit. -/
def tableWords (nbits w : Nat) : List Word :=
  if nbits ≤ 16 ∧ w < 2 ^ nbits then [BitVec.ofNat 16 w] else []

/-- The instruction the decoder reads from the bits `w` as spec/opcode_table.json numbers them. -/
def decodeTableWord (nbits w : Nat) : Option Instr :=
  match decode (tableWords nbits w) with
  | .ok (i, _) => some i
  | .error _ => none

end Sys2Proof
end

