-- ==== Sys2Proof/Machine/State.lean ====
section
/-! DEFINITION. The state of the machine as plain data (10_state.md), its reset value (R25), and the reasons a step stops. -/

namespace Sys2Proof.Machine

/-- The eight general registers (R10). -/
structure Regs where
  r0 : Word
  r1 : Word
  r2 : Word
  r3 : Word
  r4 : Word
  r5 : Word
  r6 : Word
  r7 : Word
  deriving DecidableEq, Repr

/-- The contents of COND (R15): no flag (only from reset until the first flag-setting instruction, R17), POS, ZRO, NEG.
R15 allows this enumeration; the numbers are `condBits` (log 10). -/
inductive Cond where
  | none | pos | zro | neg
  deriving DecidableEq, Repr

/-- The memory of 65536 words (R21, R30): the cells that do not hold 0x0000, as pairs of an address and a word, addresses
rising. An unlisted address reads as 0x0000, its reset value (R25). The unit is the word: there are no bytes (R38, log 1). -/
abbrev Memory := List (Nat × Word)

/-- A decode gap, the one fault of the hardware, with its cause and the information it records (R150, R151). -/
inductive DecodeGap where
  /-- cause RTI, with the whole instruction word (R121) -/
  | rti (ir : Word)
  /-- cause RES, with the whole instruction word (R122) -/
  | res (ir : Word)
  /-- cause TRAP_UNWIRED, with the 8-bit vector (R120) -/
  | trapUnwired (v : TrapVector)
  deriving DecidableEq, Repr

/-- The run status (R20). -/
inductive RunStatus where
  | running
  | faulted (gap : DecodeGap)
  deriving DecidableEq, Repr

/-- The state (10_state section 1), then the model's own fields: the trap_event output of the last step (R138, log 3), the
answers the environment gives to the next keyboard polls and the number of polls made (R134, log 2), and the open
parameters (R2, log 4). -/
structure State where
  regs : Regs
  pc : Word
  cond : Cond
  mem : Memory
  status : RunStatus
  trapEvent : Option TrapVector
  keys : List Word
  polls : Nat
  params : Params
  deriving DecidableEq, Repr

/-- The reasons a step stops with a host-level fault: there is none. The hardware's one fault, the decode gap, is a next
state whose run status is FAULTED (R74, R154; log 5), and no other access, encoding or operand can fault (R46, R57, R150). -/
inductive Fault where
  deriving DecidableEq, Repr

/-- The reasons an instruction has no meaning. -/
inductive Refusal where
  /-- the instruction of this mnemonic has no meaning yet; raised by `exec`'s refused arms, of which none is left (safe) -/
  | notModelled (mnemonic : String)
  deriving DecidableEq, Repr

/-- The machine right after reset (R25, R180): R0 to R7 = 0, PC = 0x3000, COND = 0, every cell 0, RUNNING. The model's own
fields: no trap event (log 3), no listed answers and no poll made (log 2), default parameters (R2, log 4). -/
def State.reset : State where
  regs := ⟨0#16, 0#16, 0#16, 0#16, 0#16, 0#16, 0#16, 0#16⟩
  pc := 0x3000#16
  cond := .none
  mem := []
  status := .running
  trapEvent := none
  keys := []
  polls := 0
  params := Params.default

end Sys2Proof.Machine
end

