-- ==== Sys2Proof/Machine/Ops.lean ====
section
/-! DEFINITION. The named operations over registers, memory and the keyboard, the taking of a decode gap, and the ports of
the host (10_state.md, 20_memory.md, 50_interfaces.md, 60_exceptions.md). -/

namespace Sys2Proof.Machine

/-- Read one register of the file (R10). -/
def Regs.get (rs : Regs) : Reg → Word
  | .r0 => rs.r0
  | .r1 => rs.r1
  | .r2 => rs.r2
  | .r3 => rs.r3
  | .r4 => rs.r4
  | .r5 => rs.r5
  | .r6 => rs.r6
  | .r7 => rs.r7

/-- Write one register of the file; none is hardwired (R10). -/
def Regs.set (rs : Regs) (v : Word) : Reg → Regs
  | .r0 => { rs with r0 := v }
  | .r1 => { rs with r1 := v }
  | .r2 => { rs with r2 := v }
  | .r3 => { rs with r3 := v }
  | .r4 => { rs with r4 := v }
  | .r5 => { rs with r5 := v }
  | .r6 => { rs with r6 := v }
  | .r7 => { rs with r7 := v }

/-- `x[r]` (R10). -/
def getReg (r : Reg) (s : State) : Word := s.regs.get r

/-- `x[r] <- v` (R10). -/
def setReg (r : Reg) (v : Word) (s : State) : State := { s with regs := s.regs.set v r }

/-- `pc <- target` (R13). -/
def setPc (target : Word) (s : State) : State := { s with pc := target }

/-- The increment of the PC, modulo 2^16 (R14, R72; log 11). -/
def advancePc (s : State) : State := setPc (s.pc + 1#16) s

/-- The cell at an address of a memory; an unlisted cell holds 0x0000 (R25). -/
def memGet (a : Nat) : Memory → Word
  | [] => 0#16
  | (b, w) :: m => if a = b then w else memGet a m

/-- The memory with one cell changed, in canonical form again: writing 0x0000 unlists the cell. -/
def memSet (a : Nat) (v : Word) : Memory → Memory
  | [] => if v = 0#16 then [] else [(a, v)]
  | (b, w) :: m =>
    if a < b then (if v = 0#16 then (b, w) :: m else (a, v) :: (b, w) :: m)
    else if a = b then (if v = 0#16 then m else (a, v) :: m)
    else (b, w) :: memSet a v m

/-- Every address is at least `lo` and below 65536, addresses rise strictly, and no cell holds 0x0000. -/
def Memory.wfFrom (lo : Nat) : Memory → Bool
  | [] => true
  | (a, v) :: m => decide (lo ≤ a) && decide (a < 65536) && decide (v ≠ 0#16) && Memory.wfFrom (a + 1) m

/-- The canonical form of a memory: equal memories are equal lists. -/
def Memory.wf (m : Memory) : Bool := Memory.wfFrom 0 m

/-- The stored word at an address, with no side effect: what the observation port reads (R139). -/
def peek (a : Word) (s : State) : Word := memGet a.toNat s.mem

/-- `memory[a] <- v` (R21). -/
def poke (a v : Word) (s : State) : State := { s with mem := memSet a.toNat v s.mem }

/-- `MemWrite(a, 16, v)`: a plain store at every address, KBSR and KBDR included (R35). -/
def memWrite (a v : Word) (s : State) : State := poke a v s

/-- The address of the keyboard status register (R32). -/
def kbsr : Word := 0xFE00#16

/-- The address of the keyboard data register (R32). -/
def kbdr : Word := 0xFE02#16

/-- The answer `PollKey()` gets from the keyboard adapter: the next listed answer, or a free value where none is listed
(R134, log 2). -/
def pollAnswer (s : State) : Word :=
  match s.keys with
  | k :: _ => k
  | [] => Config.pollAnswer s.polls

/-- The state after one request on the kbd_poll port: the answer is used up (R134, R136). -/
def afterPoll (s : State) : State := { s with keys := s.keys.tail, polls := s.polls + 1 }

/-- What a poll that found a key writes to the KBSR cell, by KBSR_READY_WRITE (R34, log 12). -/
def readyWord (rw : ReadyWrite) (old : Word) : Word :=
  match rw with
  | .assign => 0x8000#16
  | .or => old ||| 0x8000#16

/-- The keyboard update of R34: one poll; a key writes KBSR and KBDR, no key clears KBSR and leaves KBDR (log 12). -/
def keyboardUpdate (s : State) : State :=
  let k := pollAnswer s
  let s1 := afterPoll s
  if k = 0#16 then poke kbsr 0#16 s1
  else poke kbdr k (poke kbsr (readyWord s1.params.kbsrReadyWrite (peek kbsr s1)) s1)

/-- `MemRead(a, 16)`: the word, and the state after the access; only a read of KBSR has a side effect (R33). -/
def memRead (a : Word) (s : State) : Word × State :=
  let s1 := if a = kbsr then keyboardUpdate s else s
  (peek a s1, s1)

/-- The fetch of a step, through `MemRead` (R71, R36; log 8). -/
def fetch (s : State) : Word × State := memRead s.pc s

/-- The link write of JSR, JSRR and TRAP: R7 receives the incremented PC (R12). -/
def link (s : State) : State := setReg .r7 s.pc s

/-- `emit trap_event(v)`: the output stands in `trapEvent` until the next step begins (R138, log 3). -/
def emitTrapEvent (v : TrapVector) (s : State) : State := { s with trapEvent := some v }

/-- The beginning of a step: the output of the step before is gone (R133, log 3). -/
def beginStep (s : State) : State := { s with trapEvent := none }

/-- Taking a decode gap: the run status becomes FAULTED(cause, info); nothing is saved, nothing is vectored and nothing
else changes (R150, R151, R154; log 5). There is no return from it: only reset leaves FAULTED. -/
def raiseDecodeGap (g : DecodeGap) (s : State) : Host.Outcome State Fault Refusal :=
  .next { s with status := .faulted g }

/-- The code of a decode gap's cause (R150). -/
def gapCode : DecodeGap → BitVec 4
  | .rti _ => 0x8#4
  | .res _ => 0xD#4
  | .trapUnwired _ => 0xF#4

/-- The info of a decode gap (R151): the instruction word, or the vector for TRAP_UNWIRED. -/
def gapInfo : DecodeGap → Word
  | .rti ir => ir
  | .res ir => ir
  | .trapUnwired v => v.setWidth 16

/-- TRAP_WIRED (R2, R120). -/
def trapWired (v : TrapVector) (s : State) : Bool := decide (v ∉ s.params.unwired)

/-- The reset port (R131): every piece of the block's state at its reset value, FAULTED left. The parameters are the
machine's and the keyboard is outside the block, so they stay (log 17). -/
def resetPort (s : State) : State := { State.reset with params := s.params, keys := s.keys, polls := s.polls }

/-- The loader write port (R132): one `MemWrite`. -/
def loadWrite (a v : Word) (s : State) : State := memWrite a v s

/-- The loader's writes of an image, in order: the only way an image gets in, after a reset and before the first step that
follows it (R132, R141, R182; log 13, log 14). -/
def loadImage (image : List (Word × Word)) (s : State) : State :=
  match image with
  | [] => s
  | c :: rest => loadImage rest (loadWrite c.1 c.2 s)

/-- An image loaded after the first reset. The parameters and the keyboard's answers are the environment's. -/
def State.loaded (params : Params) (keys : List Word) (image : List (Word × Word)) : State :=
  loadImage image { State.reset with params := params, keys := keys }

end Sys2Proof.Machine
end

