-- ==== Sys2Proof/Machine/Operands.lean ====
section
/-! DEFINITION. Operand forms: sign and zero extension (40_fetch_dispatch R75, R76) and the effective addresses (R79). -/

namespace Sys2Proof.Machine

/-- `is_negative(v, N)` (R75): bit N - 1 of v, the shifted value masked to one bit. -/
def isNegative {n : Nat} (v : BitVec n) : Bool := ((v.toNat >>> (n - 1)) &&& 1) = 1

/-- `sext_N(v)` (R75): a negative field gets ones in bits N to 15, by the mask (0xFFFF << N) & 0xFFFF. -/
def sext {n : Nat} (v : BitVec n) : Word :=
  if isNegative v then v.setWidth 16 ||| (0xFFFF#16 <<< n) else v.setWidth 16

/-- `zext_8(v)` (R76). -/
def zext8 (v : TrapVector) : Word := v.setWidth 16

/-- PC-relative with a 9-bit offset, the PC already incremented (R79). -/
def pcOffset9 (off9 : BitVec 9) (s : State) : Word := s.pc + sext off9

/-- PC-relative with an 11-bit offset, the PC already incremented (R79). -/
def pcOffset11 (off11 : BitVec 11) (s : State) : Word := s.pc + sext off11

/-- Base plus 6-bit offset (R79). -/
def baseOffset6 (base : Reg) (off6 : BitVec 6) (s : State) : Word := getReg base s + sext off6

end Sys2Proof.Machine
end

