-- ==== Sys2Proof/Machine/Flags.lean ====
section
/-! DEFINITION. The condition flags: classification, update and test (10_state R15 to R18, 40_fetch_dispatch R77). -/

namespace Sys2Proof.Machine

/-- `classify(v)` (R16): ZRO if v is zero, NEG if bit 15 is 1, POS otherwise. -/
def classify (v : Word) : Cond :=
  if v = 0#16 then .zro else if isNegative v then .neg else .pos

/-- The word the COND cell holds (R15): FL_POS = 1, FL_ZRO = 2, FL_NEG = 4, and 0 for no flag (log 10). -/
def condBits : Cond → Word
  | .none => 0x0000#16
  | .pos => 0x0001#16
  | .zro => 0x0002#16
  | .neg => 0x0004#16

/-- `setcc(r)` (R77): COND describes the current value of the register. -/
def setcc (r : Reg) (s : State) : State := { s with cond := classify (getReg r s) }

/-- The end of every instruction that sets flags: DR is written, then `setcc(DR)` (R18, R77). -/
def writeFlagged (dr : Reg) (v : Word) (s : State) : State := setcc dr (setReg dr v s)

/-- The 3-bit number `ir[11:9]` of a BR (R90): 4n + 2z + p. -/
def condField (n z p : Bool) : Word := (BitVec.ofBool n ++ BitVec.ofBool z ++ BitVec.ofBool p : BitVec 3).setWidth 16

/-- The test of BR (R90): `(ir[11:9] & cond) != 0`. -/
def branchTaken (n z p : Bool) (c : Cond) : Bool := (condField n z p &&& condBits c) ≠ 0#16

/-- What the observation port can select (R139). -/
inductive Observed where
  | reg (r : Reg)
  | pc
  | cond
  | cell (a : Word)
  deriving DecidableEq, Repr

/-- The observation port (R139): the stored word, with no side effect and no poll; the run status is read as the field. -/
def observe (o : Observed) (s : State) : Word :=
  match o with
  | .reg r => getReg r s
  | .pc => s.pc
  | .cond => condBits s.cond
  | .cell a => peek a s

end Sys2Proof.Machine
end

