-- ==== Sys2Proof/Machine/Alu.lean ====
section
/-! DEFINITION. ADD, AND and NOT (41_alu.md). -/

namespace Sys2Proof.Machine

/-- ADD, register form (R80): both sources are read before DR is written; the sum wraps silently (R85). -/
def execAddReg (dr sr1 sr2 : Reg) (s : State) : Host.Outcome State Fault Refusal :=
  .next (writeFlagged dr (getReg sr1 s + getReg sr2 s) s)

/-- ADD, immediate form (R81). -/
def execAddImm (dr sr1 : Reg) (imm5 : BitVec 5) (s : State) : Host.Outcome State Fault Refusal :=
  .next (writeFlagged dr (getReg sr1 s + sext imm5) s)

/-- AND, register form (R82). -/
def execAndReg (dr sr1 sr2 : Reg) (s : State) : Host.Outcome State Fault Refusal :=
  .next (writeFlagged dr (getReg sr1 s &&& getReg sr2 s) s)

/-- AND, immediate form (R83): the immediate is sign-extended first. -/
def execAndImm (dr sr1 : Reg) (imm5 : BitVec 5) (s : State) : Host.Outcome State Fault Refusal :=
  .next (writeFlagged dr (getReg sr1 s &&& sext imm5) s)

/-- NOT (R84). -/
def execNot (dr sr : Reg) (s : State) : Host.Outcome State Fault Refusal :=
  .next (writeFlagged dr (~~~ getReg sr s) s)

end Sys2Proof.Machine
end

