-- ==== Sys2Proof/Machine/Control.lean ====
section
/-! DEFINITION. BR, JMP (RET), JSR and JSRR (42_control.md). In each the PC is already incremented (R72). -/

namespace Sys2Proof.Machine

/-- BR (R90): the branch is relative to the incremented PC. -/
def execBr (n z p : Bool) (off9 : BitVec 9) (s : State) : Host.Outcome State Fault Refusal :=
  .next (if branchTaken n z p s.cond then setPc (pcOffset9 off9 s) s else s)

/-- JMP; RET is JMP with BaseR = 7 (R91). -/
def execJmp (base : Reg) (s : State) : Host.Outcome State Fault Refusal :=
  .next (setPc (getReg base s) s)

/-- JSR (R92): link and target come from the same incremented PC. -/
def execJsr (off11 : BitVec 11) (s : State) : Host.Outcome State Fault Refusal :=
  .next (setPc (pcOffset11 off11 s) (link s))

/-- JSRR (R93): R7 is written first and BaseR is read afterwards (log 7). -/
def execJsrr (base : Reg) (s : State) : Host.Outcome State Fault Refusal :=
  let s1 := link s
  .next (setPc (getReg base s1) s1)

end Sys2Proof.Machine
end

