-- ==== Sys2Proof/Machine/Load.lean ====
section
/-! DEFINITION. LD, LDI, LDR and LEA (43_load.md). In each the PC is already incremented (R72). -/

namespace Sys2Proof.Machine

/-- The common end of LD, LDI and LDR: read the word at the effective address, write DR, set the flags. -/
def loadFrom (dr : Reg) (ea : Word) (s : State) : State :=
  let r := memRead ea s
  writeFlagged dr r.1 r.2

/-- LD (R100). -/
def execLd (dr : Reg) (off9 : BitVec 9) (s : State) : Host.Outcome State Fault Refusal :=
  .next (loadFrom dr (pcOffset9 off9 s) s)

/-- LDI (R101): the pointer read, then the data read in the state the pointer read left (R40). -/
def execLdi (dr : Reg) (off9 : BitVec 9) (s : State) : Host.Outcome State Fault Refusal :=
  let ptr := memRead (pcOffset9 off9 s) s
  .next (loadFrom dr ptr.1 ptr.2)

/-- LDR (R102): the base is read before DR is written. -/
def execLdr (dr base : Reg) (off6 : BitVec 6) (s : State) : Host.Outcome State Fault Refusal :=
  .next (loadFrom dr (baseOffset6 base off6 s) s)

/-- LEA (R103): no memory access; the flags are set. -/
def execLea (dr : Reg) (off9 : BitVec 9) (s : State) : Host.Outcome State Fault Refusal :=
  .next (writeFlagged dr (pcOffset9 off9 s) s)

end Sys2Proof.Machine
end

