-- ==== Sys2Proof/Machine/Store.lean ====
section
/-! DEFINITION. ST, STI and STR (44_store.md). In each the PC is already incremented (R72). -/

namespace Sys2Proof.Machine

/-- ST (R110). -/
def execSt (sr : Reg) (off9 : BitVec 9) (s : State) : Host.Outcome State Fault Refusal :=
  .next (memWrite (pcOffset9 off9 s) (getReg sr s) s)

/-- STI (R111): the pointer is read through `MemRead`, then SR is stored at the address it holds. -/
def execSti (sr : Reg) (off9 : BitVec 9) (s : State) : Host.Outcome State Fault Refusal :=
  let ptr := memRead (pcOffset9 off9 s) s
  .next (memWrite ptr.1 (getReg sr ptr.2) ptr.2)

/-- STR (R112). -/
def execStr (sr base : Reg) (off6 : BitVec 6) (s : State) : Host.Outcome State Fault Refusal :=
  .next (memWrite (baseOffset6 base off6 s) (getReg sr s) s)

end Sys2Proof.Machine
end

