-- ==== Sys2Proof/Machine/System.lean ====
section
/-! DEFINITION. TRAP, RTI and RES (45_system.md). In each the PC is already incremented (R72). -/

namespace Sys2Proof.Machine

/-- TRAP (R120): an unwired vector raises the decode gap before any write; otherwise R7 := PC, PC := the table cell, and the
trap event is emitted. -/
def execTrap (vect8 : TrapVector) (s : State) : Host.Outcome State Fault Refusal :=
  if trapWired vect8 s then
    let entry := memRead (zext8 vect8) (link s)
    .next (emitTrapEvent vect8 (setPc entry.1 entry.2))
  else raiseDecodeGap (.trapUnwired vect8) s

/-- RTI (R121): always the decode gap, with the instruction word. -/
def execRti (ir : Word) (s : State) : Host.Outcome State Fault Refusal :=
  raiseDecodeGap (.rti ir) s

/-- RES (R122): always the decode gap, with the instruction word. -/
def execRes (ir : Word) (s : State) : Host.Outcome State Fault Refusal :=
  raiseDecodeGap (.res ir) s

end Sys2Proof.Machine
end

