-- ==== Sys2Proof/Machine/Step.lean ====
section
/-! DEFINITION. One step (40_fetch_dispatch R70) and the placing of a word where the next step fetches. -/

namespace Sys2Proof.Machine

/-- One invocation of the step port (R133). RUNNING: fetch, increment, dispatch (R70). FAULTED: nothing happens and the run
status goes on reporting the fault (R20, R133; log 5). -/
def step (s : State) : Host.Outcome State Fault Refusal :=
  match s.status with
  | .faulted _ => .next s
  | .running =>
    let f := fetch (beginStep s)
    exec (decodeWord f.1) (advancePc f.2)

/-- The state with one instruction stored where `step` fetches: RUNNING, and the PC off KBSR, from which no stored word is
ever fetched (R36), in which case it is moved to the reset PC. It stands for the loader's write (R132; log 13). -/
def State.withFetchWord (s : State) (nbits w : Nat) : State :=
  let pc := if s.pc = kbsr then State.reset.pc else s.pc
  match tableWords nbits w with
  | ir :: _ => poke pc ir { s with pc := pc, status := .running }
  | [] => { s with pc := pc, status := .running }

end Sys2Proof.Machine
end

