-- ==== Sys2Proof/Safety.lean ====
section
/-! DEFINITION. The invariant of the machine, the states a run can reach, and what ends a run (50_interfaces R140, R141). -/

namespace Sys2Proof.Machine

/-- A recorded fault agrees with the instruction that raised it (R150, R151): the info of RTI and RES is a word of that
opcode, the info of TRAP_UNWIRED is a vector that is not wired. -/
def State.faultRecordOk (s : State) : Bool :=
  match s.status with
  | .running => true
  | .faulted (.rti ir) => ir.extractLsb' 12 4 = 0b1000#4
  | .faulted (.res ir) => ir.extractLsb' 12 4 = 0b1101#4
  | .faulted (.trapUnwired v) => ! trapWired v s

/-- What every step keeps: memory is in canonical form and a recorded fault agrees with its cause. -/
structure State.Inv (s : State) : Prop where
  memWf : s.mem.wf = true
  faultOk : s.faultRecordOk = true

/-- A proper final state (R140): the step just completed emitted the event of a halt vector. FAULTED is never final. -/
def State.final (s : State) : Bool :=
  match s.status, s.trapEvent with
  | .running, some v => decide (v ∈ s.params.haltVectors)
  | _, _ => false

/-- A run that has not gone wrong (R20, R154). -/
def State.safe (s : State) : Prop := s.status = .running

/-- What the host's last moves allow it next (R141): before the first reset only a reset; between a reset and the first step
after it also loads and a step; from that step on no load until the next reset. -/
inductive HostPhase where
  | beforeReset
  | loading
  | stepping
  deriving DecidableEq, Repr

/-- The moves of the host that act on the machine, complete (R141; log 14): reset at any time between steps, `load_write`
between any reset and the first step after it, `step`. Reading state and ceasing to step change nothing (R139). -/
inductive HostMove : HostPhase → State → HostPhase → State → Prop where
  | reset (p : HostPhase) (s : State) : HostMove p s .loading (resetPort s)
  | load (a v : Word) (s : State) : HostMove .loading s .loading (loadWrite a v s)
  | step {p : HostPhase} {s t : State} (hp : p ≠ .beforeReset) (ht : Machine.step s = .next t) : HostMove p s .stepping t

/-- What sequences of the host's moves lead to. Before the first reset no rule gives the state, so it is any (R141). -/
inductive HostReaches : HostPhase → State → Prop where
  | start (s : State) : HostReaches .beforeReset s
  | move {p q : HostPhase} {s t : State} (h : HostReaches p s) (hm : HostMove p s q t) : HostReaches q t

/-- The states a run can reach: those the host's moves lead to, once it has reset the machine (R141). -/
def Reachable (s : State) : Prop := ∃ p, p ≠ .beforeReset ∧ HostReaches p s

end Sys2Proof.Machine
end

