-- ==== Sys2Proof/Certificates/Slice0/Obligations.lean ====
section
/-! DEFINITION. The statements for the provers, each a rule of spec/ or an inference from several, and the vocabulary they
share. -/

namespace Sys2Proof.Spec

open Sys2Proof.Machine

/-- The table of R85: COND describes the word `v`. -/
def FlagsDescribe (c : Cond) (v : Word) : Prop :=
  (c = .zro ↔ v.toNat = 0) ∧ (c = .pos ↔ 1 ≤ v.toNat ∧ v.toNat ≤ 0x7FFF) ∧ (c = .neg ↔ 0x8000 ≤ v.toNat)

/-- Every register reads as before. -/
def SameRegs (s t : State) : Prop := ∀ r, getReg r t = getReg r s

/-- Every register but `d` reads as before. -/
def SameRegsBut (d : Reg) (s t : State) : Prop := ∀ r, r ≠ d → getReg r t = getReg r s

/-- Every cell of memory reads as before. -/
def SameMem (s t : State) : Prop := ∀ a, peek a t = peek a s

/-- The run status, the outputs, the keyboard inputs and the parameters are as before. -/
def SameRest (s t : State) : Prop :=
  t.status = s.status ∧ t.trapEvent = s.trapEvent ∧ t.keys = s.keys ∧ t.polls = s.polls ∧ t.params = s.params

/-- The effect of an instruction that sets flags, and its frame: DR holds `v`, COND describes `v`, nothing else changes. -/
def WritesFlagged (dr : Reg) (v : Word) (s t : State) : Prop :=
  getReg dr t = v ∧ FlagsDescribe t.cond v ∧ SameRegsBut dr s t ∧ t.pc = s.pc ∧ SameMem s t ∧ SameRest s t

/-- `ea` is `base` plus the signed number of an offset field, modulo 2^16. -/
def OffsetFrom (base : Word) {n : Nat} (off : BitVec n) (ea : Word) : Prop :=
  (ea.toNat : Int) = ((base.toNat : Int) + off.toInt) % 65536

/-- A `MemRead` of `a` gives `v` and leaves `s1`: outside 0xFE00 it is a plain read with no effect; a read of 0xFE00 makes
one poll, uses up one answer, changes no cell but 0xFE00 and 0xFE02 and, under the default KBSR_READY_WRITE, gives 0x8000 or
0x0000. No read changes a register, the PC, COND, the run status, the trap event or a parameter. -/
def Reads (a : Word) (s : State) (v : Word) (s1 : State) : Prop :=
  memRead a s = (v, s1) ∧ (a ≠ 0xFE00#16 → v = peek a s ∧ s1 = s) ∧
  (a = 0xFE00#16 → s1.polls = s.polls + 1 ∧ s1.keys = s.keys.tail ∧ v = peek a s1 ∧
    (s.params.kbsrReadyWrite = .assign → v = (if pollAnswer s = 0#16 then 0x0000#16 else 0x8000#16))) ∧
  (∀ b, b ≠ 0xFE00#16 → b ≠ 0xFE02#16 → peek b s1 = peek b s) ∧
  SameRegs s s1 ∧ s1.pc = s.pc ∧ s1.cond = s.cond ∧ s1.status = s.status ∧ s1.trapEvent = s.trapEvent ∧ s1.params = s.params

/-- The effect of a store of `v` at `a`, and its frame: every other cell reads as before, nothing else changes. -/
def Stores (a v : Word) (s t : State) : Prop :=
  peek a t = v ∧ (∀ b, b ≠ a → peek b t = peek b s) ∧ SameRegs s t ∧ t.cond = s.cond ∧ t.pc = s.pc ∧ SameRest s t

/-- The frame of a control transfer: COND, memory and the rest are as before. -/
def ControlFrame (s t : State) : Prop := t.cond = s.cond ∧ SameMem s t ∧ SameRest s t

/-- The number of a register. -/
def regNumber : Reg → Nat
  | .r0 => 0
  | .r1 => 1
  | .r2 => 2
  | .r3 => 3
  | .r4 => 4
  | .r5 => 5
  | .r6 => 6
  | .r7 => 7

/-- The register an instruction writes, from the table under R12. -/
def destReg : Instr → Option Reg
  | .addReg dr _ _ => some dr
  | .addImm dr _ _ => some dr
  | .andReg dr _ _ => some dr
  | .andImm dr _ _ => some dr
  | .not dr _ => some dr
  | .br _ _ _ _ => none
  | .jmp _ => none
  | .jsr _ => some .r7
  | .jsrr _ => some .r7
  | .ld dr _ => some dr
  | .ldi dr _ => some dr
  | .ldr dr _ _ => some dr
  | .lea dr _ => some dr
  | .st _ _ => none
  | .sti _ _ => none
  | .str _ _ _ => none
  | .trap _ => some .r7
  | .rti _ => none
  | .res _ => none

/-- The destination of an instruction that sets flags (R18: exactly ADD, AND, NOT, LD, LDI, LDR, LEA). -/
def flagDest : Instr → Option Reg
  | .addReg dr _ _ => some dr
  | .addImm dr _ _ => some dr
  | .andReg dr _ _ => some dr
  | .andImm dr _ _ => some dr
  | .not dr _ => some dr
  | .ld dr _ => some dr
  | .ldi dr _ => some dr
  | .ldr dr _ _ => some dr
  | .lea dr _ => some dr
  | .br _ _ _ _ | .jmp _ | .jsr _ | .jsrr _ | .st _ _ | .sti _ _ | .str _ _ _ | .trap _ | .rti _ | .res _ => none

/-- The address an instruction stores to, from the table under R112, computed as the meanings compute it. -/
def storeAddress (i : Instr) (s : State) : Option Word :=
  match i with
  | .st _ off9 => some (pcOffset9 off9 s)
  | .sti _ off9 => some (memRead (pcOffset9 off9 s) s).1
  | .str _ base off6 => some (baseOffset6 base off6 s)
  | .addReg _ _ _ | .addImm _ _ _ | .andReg _ _ _ | .andImm _ _ _ | .not _ _ | .br _ _ _ _ | .jmp _ | .jsr _ | .jsrr _
  | .ld _ _ | .ldi _ _ | .ldr _ _ _ | .lea _ _ | .trap _ | .rti _ | .res _ => none

/-- The register a store instruction stores. -/
def storedReg : Instr → Option Reg
  | .st sr _ => some sr
  | .sti sr _ => some sr
  | .str sr _ _ => some sr
  | .addReg _ _ _ | .addImm _ _ _ | .andReg _ _ _ | .andImm _ _ _ | .not _ _ | .br _ _ _ _ | .jmp _ | .jsr _ | .jsrr _
  | .ld _ _ | .ldi _ _ | .ldr _ _ _ | .lea _ _ | .trap _ | .rti _ | .res _ => none

/-- The instruction is a BR, the only reader of COND (R18). -/
def isBr : Instr → Bool
  | .br _ _ _ _ => true
  | .addReg _ _ _ | .addImm _ _ _ | .andReg _ _ _ | .andImm _ _ _ | .not _ _ | .jmp _ | .jsr _ | .jsrr _ | .ld _ _ | .ldi _ _
  | .ldr _ _ _ | .lea _ _ | .st _ _ | .sti _ _ | .str _ _ _ | .trap _ | .rti _ | .res _ => false

/-- The decode gap a word raises in a state, if any (R150): opcode 1000, opcode 1101, opcode 1111 with an unwired vector. -/
def gapOf (ir : Word) (s : State) : Option DecodeGap :=
  if ir.toNat / 4096 = 8 then some (.rti ir)
  else if ir.toNat / 4096 = 13 then some (.res ir)
  else if ir.toNat / 4096 = 15 ∧ ir.extractLsb' 0 8 ∈ s.params.unwired then some (.trapUnwired (ir.extractLsb' 0 8))
  else none

/-- The value the last of a list of loader writes gives an address, if one writes it. -/
def lastWrite (a : Word) : List (Word × Word) → Option Word
  | [] => none
  | (b, v) :: rest =>
    match lastWrite a rest with
    | some w => some w
    | none => if a = b then some v else none

end Sys2Proof.Spec

section Statements

open Sys2Proof Sys2Proof.Machine Sys2Proof.Spec

/-! ### Encoding -/

/-- Decoding the encoding of a well-formed instruction gives it back, at every value of every operand. -/
def Obligations.DecodeOfEncode : Prop := ∀ i : Instr, i.wf = true → decodeWord (encode i) = i

/-- Every word decodes to a well-formed instruction, whose encoding agrees with the word on every bit the layout names. The
ignored bits are the encoder's own fill (log 6). -/
def Obligations.EncodeOfDecodeOnExaminedBits : Prop :=
  ∀ ir : Word, (decodeWord ir).wf = true ∧
    ∀ r ∈ opcodeTable, r.holds ir = true → encode (decodeWord ir) &&& r.examined = ir &&& r.examined

/-- R57: every word selects exactly one row of the opcode table, the decoder picks that row, and the instruction faults if
and only if its opcode is 1000 or 1101, or it is a TRAP whose vector is not wired. -/
def Obligations.EveryWordSelectsOneRow : Prop :=
  (∀ ir : Word, ∃ r ∈ opcodeTable, r.holds ir = true ∧ (decodeWord ir).rowName = r.name ∧
    ∀ q ∈ opcodeTable, q.holds ir = true → q = r) ∧
  ∀ (ir : Word) (s : State), s.status = .running → ∃ t, exec (decodeWord ir) s = .next t ∧
    (t.status = .running ↔ gapOf ir s = none)

/-- Bits the layout does not name do not matter: two words of one row that agree on the examined bits are the same
instruction (RTI and RES apart, which record the whole word). The spec's decision D5, log 6. -/
def Obligations.IgnoredBitsDoNotMatter : Prop :=
  ∀ (r : Row) (ir ir' : Word), r ∈ opcodeTable → r.name ≠ .rti → r.name ≠ .res → r.holds ir = true →
    ir' &&& r.examined = ir &&& r.examined → decodeWord ir' = decodeWord ir

/-- R54: the register fields DR, SR1 (or BaseR) and SR2 are the 3-bit numbers at bits 11:9, 8:6 and 2:0. -/
def Obligations.RegisterFieldsNameRegisters : Prop :=
  ∀ ir : Word, regNumber (regAt ir 9) = (ir.toNat >>> 9) % 8 ∧ regNumber (regAt ir 6) = (ir.toNat >>> 6) % 8 ∧
    regNumber (regAt ir 0) = ir.toNat % 8

/-- Words written out from the whole-word pictures under R51, one a family, decode to what they stand for. -/
def Obligations.SampleWordsDecode : Prop :=
  decodeWord 0b0001_000_001_1_01111#16 = .addImm .r0 .r1 15#5 ∧
  decodeWord 0b0001_001_000_0_00_000#16 = .addReg .r1 .r0 .r0 ∧
  decodeWord 0b0000_0_0_1_111111101#16 = .br false false true 0x1FD#9 ∧
  decodeWord 0b1010_000_000000000#16 = .ldi .r0 0#9 ∧
  decodeWord 0b0111_000_110_111111#16 = .str .r0 .r6 0x3F#6 ∧
  decodeWord 0b1111_0000_00100101#16 = .trap 0x25#8

/-! ### Helpers -/

/-- R75: the sign test is bit N - 1, `sext_N(v)` is `v` below 2^(N-1) and `v + 65536 - 2^N` otherwise, and extending the
result masked back to N bits gives the result again. -/
def Obligations.SignExtensionValue : Prop :=
  ∀ (n : Nat) (v : BitVec n), 1 ≤ n → n ≤ 16 →
    (isNegative v = true ↔ 2 ^ (n - 1) ≤ v.toNat) ∧ isNegative v = v.getLsbD (n - 1) ∧
    (sext v).toNat = (if v.toNat < 2 ^ (n - 1) then v.toNat else v.toNat + 65536 - 2 ^ n) ∧
    sext ((sext v).setWidth n) = sext v

/-- R16: exactly one of POS, ZRO, NEG holds of every word, by its sign bit and whether it is zero. -/
def Obligations.ClassifyByValue : Prop := ∀ v : Word, FlagsDescribe (classify v) v ∧ classify v ≠ .none

/-- R79: the PC-relative and base-plus-offset addresses, modulo 2^16. -/
def Obligations.EffectiveAddresses : Prop :=
  ∀ (s : State) (off9 : BitVec 9) (off11 : BitVec 11) (base : Reg) (off6 : BitVec 6),
    OffsetFrom s.pc off9 (pcOffset9 off9 s) ∧ OffsetFrom s.pc off11 (pcOffset11 off11 s) ∧
    OffsetFrom (getReg base s) off6 (baseOffset6 base off6 s)

/-! ### Memory and the keyboard -/

/-- R33: a read of 0xFE00 first performs the keyboard update; every read returns the cell as it then is; a read of any
other address, KBDR among them, has no effect. -/
def Obligations.MemReadInterceptsOnlyKbsr : Prop :=
  ∀ (a : Word) (s : State),
    (a ≠ 0xFE00#16 → memRead a s = (peek a s, s)) ∧
    (a = 0xFE00#16 → memRead a s = (peek 0xFE00#16 (keyboardUpdate s), keyboardUpdate s))

/-- The keyboard update makes one poll; a key is written to KBDR and sets the ready bit of KBSR, no key clears KBSR and
leaves KBDR; nothing else changes. The exact writes are the spec's decisions D8 and D27 (log 12). -/
def Obligations.KeyboardUpdateEffect : Prop :=
  ∀ s : State, s.mem.wf = true →
    (∀ k ks, s.keys = k :: ks → pollAnswer s = k) ∧
    (pollAnswer s = 0#16 → peek 0xFE00#16 (keyboardUpdate s) = 0#16 ∧
      peek 0xFE02#16 (keyboardUpdate s) = peek 0xFE02#16 s) ∧
    (pollAnswer s ≠ 0#16 → peek 0xFE02#16 (keyboardUpdate s) = pollAnswer s ∧
      (s.params.kbsrReadyWrite = .assign → peek 0xFE00#16 (keyboardUpdate s) = 0x8000#16) ∧
      (s.params.kbsrReadyWrite = .or → peek 0xFE00#16 (keyboardUpdate s) = peek 0xFE00#16 s ||| 0x8000#16)) ∧
    (∀ a, a ≠ 0xFE00#16 → a ≠ 0xFE02#16 → peek a (keyboardUpdate s) = peek a s) ∧
    (keyboardUpdate s).keys = s.keys.tail ∧ (keyboardUpdate s).polls = s.polls + 1 ∧
    SameRegs s (keyboardUpdate s) ∧ (keyboardUpdate s).pc = s.pc ∧ (keyboardUpdate s).cond = s.cond ∧
    (keyboardUpdate s).status = s.status ∧ (keyboardUpdate s).trapEvent = s.trapEvent ∧
    (keyboardUpdate s).params = s.params

/-- R35: `MemWrite` stores the word at any address, KBSR and KBDR included, and does nothing else; no poll is made. -/
def Obligations.MemWriteStoresAndNothingElse : Prop :=
  ∀ (a v : Word) (s : State), s.mem.wf = true → Stores a v s (memWrite a v s)

/-! ### The instructions -/

/-- R80. -/
def Obligations.AddRegisterForm : Prop :=
  (∀ ir : Word, ir &&& 0xF020#16 = 0x1000#16 → decodeWord ir = .addReg (regAt ir 9) (regAt ir 6) (regAt ir 0)) ∧
  ∀ (dr sr1 sr2 : Reg) (s : State), ∃ (t : State) (v : Word), exec (.addReg dr sr1 sr2) s = .next t ∧
    v.toNat = ((getReg sr1 s).toNat + (getReg sr2 s).toNat) % 65536 ∧ WritesFlagged dr v s t

/-- R81. -/
def Obligations.AddImmediateForm : Prop :=
  (∀ ir : Word, ir &&& 0xF020#16 = 0x1020#16 → decodeWord ir = .addImm (regAt ir 9) (regAt ir 6) (ir.extractLsb' 0 5)) ∧
  ∀ (dr sr1 : Reg) (imm5 : BitVec 5) (s : State), ∃ (t : State) (v : Word), exec (.addImm dr sr1 imm5) s = .next t ∧
    OffsetFrom (getReg sr1 s) imm5 v ∧ WritesFlagged dr v s t

/-- R82. -/
def Obligations.AndRegisterForm : Prop :=
  (∀ ir : Word, ir &&& 0xF020#16 = 0x5000#16 → decodeWord ir = .andReg (regAt ir 9) (regAt ir 6) (regAt ir 0)) ∧
  ∀ (dr sr1 sr2 : Reg) (s : State), ∃ (t : State) (v : Word), exec (.andReg dr sr1 sr2) s = .next t ∧
    (∀ k < 16, v.getLsbD k = ((getReg sr1 s).getLsbD k && (getReg sr2 s).getLsbD k)) ∧ WritesFlagged dr v s t

/-- R83: the immediate is sign-extended, then ANDed: every upper bit meets bit 4 of the field. -/
def Obligations.AndImmediateForm : Prop :=
  (∀ ir : Word, ir &&& 0xF020#16 = 0x5020#16 → decodeWord ir = .andImm (regAt ir 9) (regAt ir 6) (ir.extractLsb' 0 5)) ∧
  ∀ (dr sr1 : Reg) (imm5 : BitVec 5) (s : State), ∃ (t : State) (v : Word), exec (.andImm dr sr1 imm5) s = .next t ∧
    (∀ k < 16, v.getLsbD k = ((getReg sr1 s).getLsbD k && imm5.getLsbD (min k 4))) ∧ WritesFlagged dr v s t

/-- R84. -/
def Obligations.NotComplements : Prop :=
  (∀ ir : Word, ir &&& 0xF000#16 = 0x9000#16 → decodeWord ir = .not (regAt ir 9) (regAt ir 6)) ∧
  ∀ (dr sr : Reg) (s : State), ∃ (t : State) (v : Word), exec (.not dr sr) s = .next t ∧
    v.toNat = 0xFFFF - (getReg sr s).toNat ∧ WritesFlagged dr v s t

/-- R90: taken when n = 1 and the flag is NEG, or z = 1 and ZRO, or p = 1 and POS; the target is relative to the
incremented PC; nothing else changes. The test by numbers, `(ir[11:9] & cond) != 0`, says the same. -/
def Obligations.BranchOnCondition : Prop :=
  (∀ ir : Word, ir &&& 0xF000#16 = 0x0000#16 →
    decodeWord ir = .br (ir.getLsbD 11) (ir.getLsbD 10) (ir.getLsbD 9) (ir.extractLsb' 0 9)) ∧
  ∀ (n z p : Bool) (off9 : BitVec 9) (s : State), ∃ t : State, exec (.br n z p off9) s = .next t ∧
    ((n = true ∧ s.cond = .neg ∨ z = true ∧ s.cond = .zro ∨ p = true ∧ s.cond = .pos) ↔
      ((4 * n.toNat + 2 * z.toNat + p.toNat) &&& (condBits s.cond).toNat) ≠ 0) ∧
    (if n = true ∧ s.cond = .neg ∨ z = true ∧ s.cond = .zro ∨ p = true ∧ s.cond = .pos
      then OffsetFrom s.pc off9 t.pc else t.pc = s.pc) ∧
    SameRegs s t ∧ ControlFrame s t

/-- R91: JMP, and RET as JMP with BaseR = 7. -/
def Obligations.JumpToRegister : Prop :=
  (∀ ir : Word, ir &&& 0xF000#16 = 0xC000#16 → decodeWord ir = .jmp (regAt ir 6)) ∧ decodeWord 0xC1C0#16 = .jmp .r7 ∧
  ∀ (base : Reg) (s : State), ∃ t : State, exec (.jmp base) s = .next t ∧ t.pc = getReg base s ∧ SameRegs s t ∧
    ControlFrame s t

/-- R92. -/
def Obligations.JumpToSubroutine : Prop :=
  (∀ ir : Word, ir &&& 0xF800#16 = 0x4800#16 → decodeWord ir = .jsr (ir.extractLsb' 0 11)) ∧
  ∀ (off11 : BitVec 11) (s : State), ∃ t : State, exec (.jsr off11) s = .next t ∧ getReg .r7 t = s.pc ∧
    OffsetFrom s.pc off11 t.pc ∧ SameRegsBut .r7 s t ∧ ControlFrame s t

/-- JSRR writes the link first and reads BaseR afterwards, so that JSRR R7 continues at the next word: the spec's decision
D10 (log 7). -/
def Obligations.JumpToSubroutineRegister : Prop :=
  (∀ ir : Word, ir &&& 0xF800#16 = 0x4000#16 → decodeWord ir = .jsrr (regAt ir 6)) ∧
  ∀ (base : Reg) (s : State), ∃ t : State, exec (.jsrr base) s = .next t ∧ getReg .r7 t = s.pc ∧
    t.pc = (if base = .r7 then s.pc else getReg base s) ∧ SameRegsBut .r7 s t ∧ ControlFrame s t

/-- R100. -/
def Obligations.LoadPcRelative : Prop :=
  (∀ ir : Word, ir &&& 0xF000#16 = 0x2000#16 → decodeWord ir = .ld (regAt ir 9) (ir.extractLsb' 0 9)) ∧
  ∀ (dr : Reg) (off9 : BitVec 9) (s : State), s.mem.wf = true → ∃ (t : State) (v : Word) (s1 : State),
    exec (.ld dr off9) s = .next t ∧ OffsetFrom s.pc off9 (pcOffset9 off9 s) ∧ Reads (pcOffset9 off9 s) s v s1 ∧
    WritesFlagged dr v s1 t

/-- R101: two reads, the data read in the state the pointer read left. -/
def Obligations.LoadIndirect : Prop :=
  (∀ ir : Word, ir &&& 0xF000#16 = 0xA000#16 → decodeWord ir = .ldi (regAt ir 9) (ir.extractLsb' 0 9)) ∧
  ∀ (dr : Reg) (off9 : BitVec 9) (s : State), s.mem.wf = true → ∃ (t : State) (ea : Word) (s1 : State) (v : Word) (s2 : State),
    exec (.ldi dr off9) s = .next t ∧ OffsetFrom s.pc off9 (pcOffset9 off9 s) ∧ Reads (pcOffset9 off9 s) s ea s1 ∧
    Reads ea s1 v s2 ∧ WritesFlagged dr v s2 t

/-- R102. -/
def Obligations.LoadBaseOffset : Prop :=
  (∀ ir : Word, ir &&& 0xF000#16 = 0x6000#16 → decodeWord ir = .ldr (regAt ir 9) (regAt ir 6) (ir.extractLsb' 0 6)) ∧
  ∀ (dr base : Reg) (off6 : BitVec 6) (s : State), s.mem.wf = true → ∃ (t : State) (v : Word) (s1 : State),
    exec (.ldr dr base off6) s = .next t ∧ OffsetFrom (getReg base s) off6 (baseOffset6 base off6 s) ∧
    Reads (baseOffset6 base off6 s) s v s1 ∧ WritesFlagged dr v s1 t

/-- R103: the address itself, no memory access, flags set. -/
def Obligations.LoadEffectiveAddress : Prop :=
  (∀ ir : Word, ir &&& 0xF000#16 = 0xE000#16 → decodeWord ir = .lea (regAt ir 9) (ir.extractLsb' 0 9)) ∧
  ∀ (dr : Reg) (off9 : BitVec 9) (s : State), ∃ (t : State) (v : Word), exec (.lea dr off9) s = .next t ∧
    OffsetFrom s.pc off9 v ∧ WritesFlagged dr v s t

/-- R110. -/
def Obligations.StorePcRelative : Prop :=
  (∀ ir : Word, ir &&& 0xF000#16 = 0x3000#16 → decodeWord ir = .st (regAt ir 9) (ir.extractLsb' 0 9)) ∧
  ∀ (sr : Reg) (off9 : BitVec 9) (s : State), s.mem.wf = true → ∃ t : State, exec (.st sr off9) s = .next t ∧
    OffsetFrom s.pc off9 (pcOffset9 off9 s) ∧ Stores (pcOffset9 off9 s) (getReg sr s) s t

/-- R111: the pointer is read, then the store happens in the state the read left. -/
def Obligations.StoreIndirect : Prop :=
  (∀ ir : Word, ir &&& 0xF000#16 = 0xB000#16 → decodeWord ir = .sti (regAt ir 9) (ir.extractLsb' 0 9)) ∧
  ∀ (sr : Reg) (off9 : BitVec 9) (s : State), s.mem.wf = true → ∃ (t : State) (ea : Word) (s1 : State),
    exec (.sti sr off9) s = .next t ∧ OffsetFrom s.pc off9 (pcOffset9 off9 s) ∧ Reads (pcOffset9 off9 s) s ea s1 ∧
    Stores ea (getReg sr s) s1 t

/-- R112. -/
def Obligations.StoreBaseOffset : Prop :=
  (∀ ir : Word, ir &&& 0xF000#16 = 0x7000#16 → decodeWord ir = .str (regAt ir 9) (regAt ir 6) (ir.extractLsb' 0 6)) ∧
  ∀ (sr base : Reg) (off6 : BitVec 6) (s : State), s.mem.wf = true → ∃ t : State, exec (.str sr base off6) s = .next t ∧
    OffsetFrom (getReg base s) off6 (baseOffset6 base off6 s) ∧ Stores (baseOffset6 base off6 s) (getReg sr s) s t

/-- TRAP on a wired vector links R7, jumps to the table cell at the zero-extended vector and emits the event. Wiredness and
the event are the spec's decisions D12 and D13 (log 3, log 4). -/
def Obligations.TrapOnWiredVector : Prop :=
  (∀ ir : Word, ir &&& 0xF000#16 = 0xF000#16 → decodeWord ir = .trap (ir.extractLsb' 0 8)) ∧
  ∀ (v : TrapVector) (s : State), v ∉ s.params.unwired → ∃ (t : State) (cell : Word), exec (.trap v) s = .next t ∧
    cell.toNat = v.toNat ∧ t.pc = peek cell s ∧ getReg .r7 t = s.pc ∧ SameRegsBut .r7 s t ∧ t.cond = s.cond ∧ SameMem s t ∧
    t.trapEvent = some v ∧ t.status = s.status ∧ t.keys = s.keys ∧ t.polls = s.polls ∧ t.params = s.params

/-- TRAP on a vector that is not wired raises the decode gap before any write: the spec's decisions D11 and D12 (log 4,
log 5). -/
def Obligations.TrapOnUnwiredVector : Prop :=
  ∀ (v : TrapVector) (s : State), v ∈ s.params.unwired →
    exec (.trap v) s = .next { s with status := .faulted (.trapUnwired v) }

/-- RTI always raises the decode gap with the instruction word and changes nothing else: the spec's decisions D11 and D14
(log 5). -/
def Obligations.RtiFaults : Prop :=
  (∀ ir : Word, ir &&& 0xF000#16 = 0x8000#16 → decodeWord ir = .rti ir) ∧
  (∀ (ir : Word) (s : State), exec (.rti ir) s = .next { s with status := .faulted (.rti ir) }) ∧
  ∀ ir : Word, gapCode (.rti ir) = 0x8#4 ∧ gapInfo (.rti ir) = ir

/-- RES, the reserved opcode, always raises the decode gap with the instruction word and changes nothing else. What the
fault does is the spec's decision D11 (log 5). -/
def Obligations.ResFaults : Prop :=
  (∀ ir : Word, ir &&& 0xF000#16 = 0xD000#16 → decodeWord ir = .res ir) ∧
  (∀ (ir : Word) (s : State), exec (.res ir) s = .next { s with status := .faulted (.res ir) }) ∧
  ∀ ir : Word, gapCode (.res ir) = 0xD#4 ∧ gapInfo (.res ir) = ir

/-! ### The step -/

/-- A RUNNING step fetches through MemRead, increments the PC and runs the decoded instruction; a FAULTED step does nothing.
The clearing of the last trap event is the model's (log 3); FAULTED doing nothing is the spec's decision D11, the fetch
through MemRead its decision D6 (log 5, log 8). -/
def Obligations.StepRunsDecodedInstruction : Prop :=
  (∀ (s s1 : State) (ir : Word), s.status = .running → memRead s.pc { s with trapEvent := none } = (ir, s1) →
    step s = exec (decodeWord ir) { s1 with pc := s1.pc + 1#16 } ∧ s1.pc = s.pc) ∧
  (∀ s : State, s.status = .running → s.pc ≠ 0xFE00#16 →
    step s = exec (decodeWord (peek s.pc s)) { s with pc := s.pc + 1#16, trapEvent := none }) ∧
  ∀ (s : State) (g : DecodeGap), s.status = .faulted g → step s = .next s

/-- A fetch from 0xFE00 polls and executes the status word: no key, a BR that tests nothing; a key, RTI, which faults. The
spec's decisions D6 and D8 with the default KBSR_READY_WRITE (log 8, log 12). -/
def Obligations.FetchFromKbsr : Prop :=
  ∀ s : State, s.mem.wf = true → s.status = .running → s.pc = 0xFE00#16 → s.params.kbsrReadyWrite = .assign →
    ∃ t : State, step s = .next t ∧ t.pc = 0xFE01#16 ∧ SameRegs s t ∧ t.cond = s.cond ∧ t.polls = s.polls + 1 ∧
      (∀ a, a ≠ 0xFE00#16 → a ≠ 0xFE02#16 → peek a t = peek a s) ∧
      (pollAnswer s = 0#16 → t.status = .running ∧ peek 0xFE00#16 t = 0#16 ∧ peek 0xFE02#16 t = peek 0xFE02#16 s) ∧
      (pollAnswer s ≠ 0#16 → t.status = .faulted (.rti 0x8000#16) ∧ peek 0xFE00#16 t = 0x8000#16 ∧
        peek 0xFE02#16 t = pollAnswer s)

/-- Every step from every state answers a next state, RUNNING or FAULTED: RTI, RES and a TRAP on an unwired vector answer a
FAULTED one, and a FAULTED state answers itself. That a decode gap is a next state is the spec's decision D11 as the model
reads it (log 5). -/
def Obligations.EveryStepCompletes : Prop := ∀ s : State, ∃ t : State, step s = .next t

/-- The only way a RUNNING machine becomes FAULTED, and all that happens then: the fetched word raises a decode gap, and the
state is the one after fetch and increment but for the run status. The spec's decision D11 (log 5). -/
def Obligations.OnlyDecodeGapsFault : Prop :=
  ∀ (s t s1 : State) (ir : Word), s.status = .running → memRead s.pc { s with trapEvent := none } = (ir, s1) →
    step s = .next t →
    (∀ g, gapOf ir s = some g → t = { s1 with pc := s.pc + 1#16, status := .faulted g }) ∧
    (gapOf ir s = none → t.status = .running)

/-- R18: exactly ADD, AND, NOT, LD, LDI, LDR and LEA set the flags, from the value written to DR; no other instruction
changes COND; only BR reads it. -/
def Obligations.FlagWritersAndReader : Prop :=
  (∀ (i : Instr) (s t : State), exec i s = .next t →
    (∀ dr, flagDest i = some dr → FlagsDescribe t.cond (getReg dr t)) ∧ (flagDest i = none → t.cond = s.cond)) ∧
  ∀ (i : Instr) (s t : State) (c : Cond), isBr i = false → exec i s = .next t →
    exec i { s with cond := c } = .next (if flagDest i = none then { t with cond := c } else t)

/-- The table under R12: an instruction changes no register but the one the table gives it. -/
def Obligations.RegisterWriters : Prop :=
  ∀ (i : Instr) (s t : State) (r : Reg), exec i s = .next t → destReg i ≠ some r → getReg r t = getReg r s

/-- The memory frame of every instruction: only the address stored to changes, and, where a keyboard poll was made, KBSR and
KBDR. -/
def Obligations.MemoryWriters : Prop :=
  ∀ (i : Instr) (s t : State) (a : Word), s.mem.wf = true → exec i s = .next t → storeAddress i s ≠ some a →
    (t.polls = s.polls ∨ a ≠ 0xFE00#16 ∧ a ≠ 0xFE02#16) → peek a t = peek a s

/-- A step makes at most one poll under the default KBSR_READY_WRITE, at most two under the other. The bound of two is the
inference of 90_conflicts.md C8(d); R74 itself advises a model of `or` to assume none below three. The counter `polls` is the
model's (log 2). -/
def Obligations.PollsPerStep : Prop :=
  ∀ s t : State, s.mem.wf = true → step s = .next t →
    s.polls ≤ t.polls ∧ t.polls ≤ s.polls + 2 ∧ (s.params.kbsrReadyWrite = .assign → t.polls ≤ s.polls + 1)

/-- A step that makes no poll neither uses up nor depends on the keyboard's answers. The fields `keys` and `polls` are the
model's (log 2). -/
def Obligations.NoPollNoKeyboardInfluence : Prop :=
  ∀ (s t : State) (ks : List Word), step s = .next t → t.polls = s.polls →
    t.keys = s.keys ∧ step { s with keys := ks } = .next { t with keys := ks }

/-- A store to the word the PC points at is executed by the very next step. -/
def Obligations.StoreIsSeenByNextFetch : Prop :=
  ∀ (i : Instr) (s t : State) (sr : Reg), s.mem.wf = true → s.status = .running → storedReg i = some sr →
    storeAddress i s = some s.pc → s.pc ≠ 0xFE00#16 → exec i s = .next t →
    step t = exec (decodeWord (getReg sr s)) { t with pc := s.pc + 1#16, trapEvent := none }

/-- A machine whose memory is all zero only increments its PC, for any number of steps that stays below 0xFE00. -/
def Obligations.EmptyMemoryOnlyCountsUp : Prop :=
  ∀ (n : Nat) (s : State), s.status = .running → s.mem = [] → s.pc.toNat + n ≤ 0xFE00 →
    ∃ t : State, core.run n s = .next t ∧ t.pc.toNat = s.pc.toNat + n ∧ t.mem = [] ∧ t.regs = s.regs ∧ t.cond = s.cond ∧
      t.status = .running ∧ t.polls = s.polls

/-- A trap event stands after a RUNNING step exactly when the step executed TRAP on a wired vector. The spec's decision D13
(log 3). -/
def Obligations.TrapEventMeansTrap : Prop :=
  ∀ (s t s1 : State) (ir : Word) (v : TrapVector), s.status = .running →
    memRead s.pc { s with trapEvent := none } = (ir, s1) → step s = .next t →
    (t.trapEvent = some v ↔ ir.toNat / 4096 = 15 ∧ ir.extractLsb' 0 8 = v ∧ v ∉ s.params.unwired)

/-- No step changes a parameter of the machine (log 4). -/
def Obligations.StepKeepsParams : Prop := ∀ s t : State, step s = .next t → t.params = s.params

/-- Once a flag is set, COND is never empty again. -/
def Obligations.FlagsStaySet : Prop := ∀ s t : State, s.cond ≠ .none → step s = .next t → t.cond ≠ .none

/-! ### The invariant, reset and loading -/

/-- Every step keeps the canonical form of memory and the agreement of a recorded fault with its cause. -/
def Obligations.StepKeepsInvariant : Prop := ∀ s t : State, s.Inv → step s = .next t → t.Inv

/-- The invariant holds at reset. -/
def Obligations.ResetMeetsInvariant : Prop := State.reset.Inv

/-- The invariant holds in every state a run can reach by the host's moves: resets at any time between steps, loads between any
reset and the first step after it, steps. Which moves the host has is the spec's decision D17 (log 14). -/
def Obligations.ReachableMeetsInvariant : Prop := ∀ s : State, Reachable s → s.Inv

/-- R25: the value of every piece of state after reset. -/
def Obligations.ResetValues : Prop :=
  (∀ r, getReg r State.reset = 0x0000#16) ∧ State.reset.pc = 0x3000#16 ∧ State.reset.cond = .none ∧
  condBits State.reset.cond = 0x0000#16 ∧ (∀ a, peek a State.reset = 0x0000#16) ∧ State.reset.status = .running

/-- The reset port puts every piece of the block's state at its reset value from any state, FAULTED included, and leaves the
parameters and the keyboard: the spec's decision D22 and the model's log 17. -/
def Obligations.ResetPortValues : Prop :=
  ∀ s : State, SameRegs State.reset (resetPort s) ∧ (resetPort s).pc = 0x3000#16 ∧ (resetPort s).cond = .none ∧
    (∀ a, peek a (resetPort s) = 0x0000#16) ∧ (resetPort s).status = .running ∧ (resetPort s).params = s.params ∧
    (resetPort s).keys = s.keys ∧ (resetPort s).polls = s.polls

/-- After any reset, whatever ran before it, and the loader's writes, every cell holds the last word written to it, or 0x0000,
and everything else is as that reset left it. The loader port is the spec's decision D17 (log 13, log 14); that a reset leaves
the parameters and the keyboard is log 17. -/
def Obligations.LastLoadWins : Prop :=
  (∀ (s : State) (image : List (Word × Word)) (a : Word),
    peek a (loadImage image (resetPort s)) = (lastWrite a image).getD 0x0000#16 ∧
    SameRegs State.reset (loadImage image (resetPort s)) ∧ (loadImage image (resetPort s)).pc = 0x3000#16 ∧
    (loadImage image (resetPort s)).cond = .none ∧ (loadImage image (resetPort s)).status = .running ∧
    (loadImage image (resetPort s)).params = s.params ∧ (loadImage image (resetPort s)).keys = s.keys ∧
    (loadImage image (resetPort s)).polls = s.polls) ∧
  ∀ (params : Params) (keys : List Word) (image : List (Word × Word)),
    State.loaded params keys image = loadImage image (resetPort { State.reset with params := params, keys := keys })

/-- The host's moves: after a reset from any state, a reachable one or the one before the first reset, any image may be loaded
and the machine stepped; after that step the host only steps and resets. The spec's decision D17 (log 14). -/
def Obligations.HostMovesAfterReset : Prop :=
  (∀ (s : State) (image : List (Word × Word)),
    HostReaches .loading (loadImage image (resetPort s)) ∧ Reachable (loadImage image (resetPort s)) ∧
    ∃ t : State, step (loadImage image (resetPort s)) = .next t ∧ Reachable t) ∧
  (∀ (s t : State) (q : HostPhase), HostMove .stepping s q t →
    (q = .loading ∧ t = resetPort s) ∨ (q = .stepping ∧ step s = .next t)) ∧
  ∀ (s t : State) (q : HostPhase), HostMove .beforeReset s q t → q = .loading ∧ t = resetPort s

end Statements
end

