-- ==== Sys2Proof/Laws/Operands.lean ====
section
/-! SUPPORT. Sign extension by the spec's mask is the library's, and the classification in terms of the top bit. -/

namespace Sys2Proof.Machine

theorem isNegative_eq_msb {n : Nat} (v : BitVec n) : isNegative v = v.msb := by
  simp [isNegative, BitVec.msb_eq_getLsbD_last, BitVec.getLsbD, Nat.testBit, Nat.and_one_is_mod, Nat.one_and_eq_mod_two]

/-- `sext` is the library's sign extension. -/
theorem sext_eq_signExtend {n : Nat} (v : BitVec n) : sext v = v.signExtend 16 := by
  have hones : (0xFFFF#16 : Word) = BitVec.allOnes 16 := rfl
  apply BitVec.eq_of_getLsbD_eq
  intro k hk
  by_cases h : k < n
  · by_cases hv : v.msb <;>
      simp [sext, isNegative_eq_msb, BitVec.getElem_signExtend, hv, h, hones, hk, -BitVec.reduceAllOnes]
  · have h1 : v.getLsbD k = false := BitVec.getLsbD_of_ge _ _ (by omega)
    by_cases hv : v.msb <;>
      simp [sext, isNegative_eq_msb, BitVec.getElem_signExtend, hv, h, hones, hk, h1, -BitVec.reduceAllOnes]

theorem classify_eq (v : Word) : classify v = if v = 0#16 then .zro else if v.msb then .neg else .pos := by
  simp only [classify, isNegative_eq_msb]

end Sys2Proof.Machine
end

