-- ==== Sys2Proof/Laws/State.lean ====
section
/-! SUPPORT. One lemma per field per update of the state, and registers read after a write. -/

namespace Sys2Proof.Machine

@[simp] theorem setReg_regs (r : Reg) (v : Word) (s : State) : (setReg r v s).regs = s.regs.set v r := rfl
@[simp] theorem setReg_pc (r : Reg) (v : Word) (s : State) : (setReg r v s).pc = s.pc := rfl
@[simp] theorem setReg_cond (r : Reg) (v : Word) (s : State) : (setReg r v s).cond = s.cond := rfl
@[simp] theorem setReg_mem (r : Reg) (v : Word) (s : State) : (setReg r v s).mem = s.mem := rfl
@[simp] theorem setReg_status (r : Reg) (v : Word) (s : State) : (setReg r v s).status = s.status := rfl
@[simp] theorem setReg_trapEvent (r : Reg) (v : Word) (s : State) : (setReg r v s).trapEvent = s.trapEvent := rfl
@[simp] theorem setReg_keys (r : Reg) (v : Word) (s : State) : (setReg r v s).keys = s.keys := rfl
@[simp] theorem setReg_polls (r : Reg) (v : Word) (s : State) : (setReg r v s).polls = s.polls := rfl
@[simp] theorem setReg_params (r : Reg) (v : Word) (s : State) : (setReg r v s).params = s.params := rfl

@[simp] theorem setPc_regs (w : Word) (s : State) : (setPc w s).regs = s.regs := rfl
@[simp] theorem setPc_pc (w : Word) (s : State) : (setPc w s).pc = w := rfl
@[simp] theorem setPc_cond (w : Word) (s : State) : (setPc w s).cond = s.cond := rfl
@[simp] theorem setPc_mem (w : Word) (s : State) : (setPc w s).mem = s.mem := rfl
@[simp] theorem setPc_status (w : Word) (s : State) : (setPc w s).status = s.status := rfl
@[simp] theorem setPc_trapEvent (w : Word) (s : State) : (setPc w s).trapEvent = s.trapEvent := rfl
@[simp] theorem setPc_keys (w : Word) (s : State) : (setPc w s).keys = s.keys := rfl
@[simp] theorem setPc_polls (w : Word) (s : State) : (setPc w s).polls = s.polls := rfl
@[simp] theorem setPc_params (w : Word) (s : State) : (setPc w s).params = s.params := rfl

@[simp] theorem poke_regs (a v : Word) (s : State) : (poke a v s).regs = s.regs := rfl
@[simp] theorem poke_pc (a v : Word) (s : State) : (poke a v s).pc = s.pc := rfl
@[simp] theorem poke_cond (a v : Word) (s : State) : (poke a v s).cond = s.cond := rfl
@[simp] theorem poke_mem (a v : Word) (s : State) : (poke a v s).mem = memSet a.toNat v s.mem := rfl
@[simp] theorem poke_status (a v : Word) (s : State) : (poke a v s).status = s.status := rfl
@[simp] theorem poke_trapEvent (a v : Word) (s : State) : (poke a v s).trapEvent = s.trapEvent := rfl
@[simp] theorem poke_keys (a v : Word) (s : State) : (poke a v s).keys = s.keys := rfl
@[simp] theorem poke_polls (a v : Word) (s : State) : (poke a v s).polls = s.polls := rfl
@[simp] theorem poke_params (a v : Word) (s : State) : (poke a v s).params = s.params := rfl

@[simp] theorem setcc_regs (r : Reg) (s : State) : (setcc r s).regs = s.regs := rfl
@[simp] theorem setcc_pc (r : Reg) (s : State) : (setcc r s).pc = s.pc := rfl
@[simp] theorem setcc_cond (r : Reg) (s : State) : (setcc r s).cond = classify (getReg r s) := rfl
@[simp] theorem setcc_mem (r : Reg) (s : State) : (setcc r s).mem = s.mem := rfl
@[simp] theorem setcc_status (r : Reg) (s : State) : (setcc r s).status = s.status := rfl
@[simp] theorem setcc_trapEvent (r : Reg) (s : State) : (setcc r s).trapEvent = s.trapEvent := rfl
@[simp] theorem setcc_keys (r : Reg) (s : State) : (setcc r s).keys = s.keys := rfl
@[simp] theorem setcc_polls (r : Reg) (s : State) : (setcc r s).polls = s.polls := rfl
@[simp] theorem setcc_params (r : Reg) (s : State) : (setcc r s).params = s.params := rfl

@[simp] theorem afterPoll_regs (s : State) : (afterPoll s).regs = s.regs := rfl
@[simp] theorem afterPoll_pc (s : State) : (afterPoll s).pc = s.pc := rfl
@[simp] theorem afterPoll_cond (s : State) : (afterPoll s).cond = s.cond := rfl
@[simp] theorem afterPoll_mem (s : State) : (afterPoll s).mem = s.mem := rfl
@[simp] theorem afterPoll_status (s : State) : (afterPoll s).status = s.status := rfl
@[simp] theorem afterPoll_trapEvent (s : State) : (afterPoll s).trapEvent = s.trapEvent := rfl
@[simp] theorem afterPoll_keys (s : State) : (afterPoll s).keys = s.keys.tail := rfl
@[simp] theorem afterPoll_polls (s : State) : (afterPoll s).polls = s.polls + 1 := rfl
@[simp] theorem afterPoll_params (s : State) : (afterPoll s).params = s.params := rfl

@[simp] theorem emitTrapEvent_regs (v : TrapVector) (s : State) : (emitTrapEvent v s).regs = s.regs := rfl
@[simp] theorem emitTrapEvent_pc (v : TrapVector) (s : State) : (emitTrapEvent v s).pc = s.pc := rfl
@[simp] theorem emitTrapEvent_cond (v : TrapVector) (s : State) : (emitTrapEvent v s).cond = s.cond := rfl
@[simp] theorem emitTrapEvent_mem (v : TrapVector) (s : State) : (emitTrapEvent v s).mem = s.mem := rfl
@[simp] theorem emitTrapEvent_status (v : TrapVector) (s : State) : (emitTrapEvent v s).status = s.status := rfl
@[simp] theorem emitTrapEvent_trapEvent (v : TrapVector) (s : State) : (emitTrapEvent v s).trapEvent = some v := rfl
@[simp] theorem emitTrapEvent_keys (v : TrapVector) (s : State) : (emitTrapEvent v s).keys = s.keys := rfl
@[simp] theorem emitTrapEvent_polls (v : TrapVector) (s : State) : (emitTrapEvent v s).polls = s.polls := rfl
@[simp] theorem emitTrapEvent_params (v : TrapVector) (s : State) : (emitTrapEvent v s).params = s.params := rfl

@[simp] theorem beginStep_regs (s : State) : (beginStep s).regs = s.regs := rfl
@[simp] theorem beginStep_pc (s : State) : (beginStep s).pc = s.pc := rfl
@[simp] theorem beginStep_cond (s : State) : (beginStep s).cond = s.cond := rfl
@[simp] theorem beginStep_mem (s : State) : (beginStep s).mem = s.mem := rfl
@[simp] theorem beginStep_status (s : State) : (beginStep s).status = s.status := rfl
@[simp] theorem beginStep_trapEvent (s : State) : (beginStep s).trapEvent = none := rfl
@[simp] theorem beginStep_keys (s : State) : (beginStep s).keys = s.keys := rfl
@[simp] theorem beginStep_polls (s : State) : (beginStep s).polls = s.polls := rfl
@[simp] theorem beginStep_params (s : State) : (beginStep s).params = s.params := rfl

@[simp] theorem Regs.get_set_same (rs : Regs) (v : Word) (r : Reg) : (rs.set v r).get r = v := by cases r <;> rfl

theorem Regs.get_set_ne (rs : Regs) (v : Word) {r q : Reg} (h : q ≠ r) : (rs.set v r).get q = rs.get q := by
  cases r <;> cases q <;> first | rfl | exact absurd rfl h

@[simp] theorem getReg_setReg_same (r : Reg) (v : Word) (s : State) : getReg r (setReg r v s) = v := Regs.get_set_same ..

theorem getReg_setReg_ne {r q : Reg} (v : Word) (s : State) (h : q ≠ r) : getReg q (setReg r v s) = getReg q s :=
  Regs.get_set_ne _ _ h

/-- A register read depends on the register file alone. -/
theorem getReg_congr {s t : State} (h : t.regs = s.regs) (r : Reg) : getReg r t = getReg r s := by simp only [getReg, h]

/-- A raw memory read depends on the memory alone. -/
theorem peek_congr {s t : State} (h : t.mem = s.mem) (a : Word) : peek a t = peek a s := by simp only [peek, h]

@[simp] theorem advancePc_eq (s : State) : advancePc s = setPc (s.pc + 1#16) s := rfl
@[simp] theorem memWrite_eq (a v : Word) (s : State) : memWrite a v s = poke a v s := rfl
@[simp] theorem link_eq (s : State) : link s = setReg .r7 s.pc s := rfl
@[simp] theorem loadWrite_eq (a v : Word) (s : State) : loadWrite a v s = poke a v s := rfl

/-- Writing DR and setting the flags: all it does. -/
theorem writeFlagged_eq (dr : Reg) (v : Word) (s : State) :
    writeFlagged dr v s = { s with regs := s.regs.set v dr, cond := classify v } := by
  simp only [writeFlagged, setcc, getReg_setReg_same]
  rfl

end Sys2Proof.Machine
end

