-- ==== Sys2Proof/Laws/Memory.lean ====
section
/-! SUPPORT. Memory: reading after a write, and the canonical form every memory operation keeps. -/

namespace Sys2Proof.Machine

theorem Memory.wfFrom_mono {lo hi : Nat} (h : lo ≤ hi) : ∀ {m : Memory}, m.wfFrom hi = true → m.wfFrom lo = true
  | [], _ => rfl
  | (a, v) :: m, hw => by
    simp only [Memory.wfFrom, Bool.and_eq_true, decide_eq_true_eq] at hw ⊢
    exact ⟨⟨⟨h.trans hw.1.1.1, hw.1.1.2⟩, hw.1.2⟩, hw.2⟩

/-- A canonical memory whose addresses start at `lo` reads 0x0000 below `lo`. -/
theorem memGet_below {lo a : Nat} (h : a < lo) : ∀ {m : Memory}, m.wfFrom lo = true → memGet a m = 0#16
  | [], _ => rfl
  | (b, w) :: m, hw => by
    simp only [Memory.wfFrom, Bool.and_eq_true, decide_eq_true_eq] at hw
    have hb : a ≠ b := by omega
    simp only [memGet, if_neg hb]
    exact memGet_below (by omega) hw.2

theorem memGet_memSet_same_from {lo : Nat} (a : Nat) (v : Word) :
    ∀ {m : Memory}, m.wfFrom lo = true → memGet a (memSet a v m) = v
  | [], _ => by
    by_cases hv : v = 0#16 <;> simp [memSet, memGet, hv]
  | (b, w) :: m, hw => by
    have hw' := hw
    simp only [Memory.wfFrom, Bool.and_eq_true, decide_eq_true_eq] at hw'
    by_cases hv : v = 0#16
    · subst hv
      rcases lt_trichotomy a b with h | h | h
      · simp only [memSet, if_pos h, if_true, memGet, if_neg h.ne]
        exact memGet_below (by omega) hw'.2
      · subst h
        simp only [memSet, lt_irrefl, if_false, if_true]
        exact memGet_below (by omega) hw'.2
      · simp only [memSet, if_neg h.not_gt, if_neg h.ne', memGet]
        exact memGet_memSet_same_from a _ hw'.2
    · rcases lt_trichotomy a b with h | h | h
      · simp [memSet, memGet, h, hv]
      · subst h
        simp [memSet, memGet, hv]
      · simp only [memSet, if_neg h.not_gt, if_neg h.ne', memGet]
        exact memGet_memSet_same_from a _ hw'.2

theorem memGet_memSet_ne_from {lo a c : Nat} (v : Word) (hc : c ≠ a) :
    ∀ {m : Memory}, m.wfFrom lo = true → memGet c (memSet a v m) = memGet c m
  | [], _ => by
    by_cases hv : v = 0#16 <;> simp [memSet, memGet, hv, hc]
  | (b, w) :: m, hw => by
    have hw' := hw
    simp only [Memory.wfFrom, Bool.and_eq_true, decide_eq_true_eq] at hw'
    have ih := memGet_memSet_ne_from v hc hw'.2
    by_cases h1 : a < b
    · by_cases hv : v = 0#16 <;> simp [memSet, memGet, h1, hv, hc]
    · by_cases h2 : a = b
      · subst h2
        by_cases hv : v = 0#16 <;> simp [memSet, memGet, hv, hc]
      · simp only [memSet, if_neg h1, if_neg h2, memGet, ih]

theorem wfFrom_memSet {lo a : Nat} (v : Word) (hlo : lo ≤ a) (ha : a < 65536) :
    ∀ {m : Memory}, m.wfFrom lo = true → (memSet a v m : Memory).wfFrom lo = true
  | [], _ => by
    by_cases hv : v = 0#16 <;> simp [memSet, Memory.wfFrom, hv, hlo, ha]
  | (b, w) :: m, hw => by
    have hw' := hw
    simp only [Memory.wfFrom, Bool.and_eq_true, decide_eq_true_eq] at hw'
    obtain ⟨⟨⟨hb, hb'⟩, hwz⟩, hm⟩ := hw'
    rcases lt_trichotomy a b with h | h | h
    · by_cases hv : v = 0#16
      · simp only [memSet, if_pos h, if_pos hv]
        exact hw
      · simp [memSet, h, hv, Memory.wfFrom, hlo, ha, hb', hwz, hm, Nat.succ_le_of_lt h]
    · subst h
      by_cases hv : v = 0#16
      · simp only [memSet, lt_irrefl, if_false, if_true, if_pos hv]
        exact Memory.wfFrom_mono (by omega) hm
      · simp [memSet, hv, Memory.wfFrom, hlo, ha, hm]
    · simp only [memSet, if_neg h.not_gt, if_neg h.ne', Memory.wfFrom, Bool.and_eq_true, decide_eq_true_eq]
      exact ⟨⟨⟨hb, hb'⟩, hwz⟩, wfFrom_memSet v (by omega) ha hm⟩

/-- The canonical form is one: canonical memories that read alike are equal lists. -/
theorem Memory.eq_of_reads {lo : Nat} : ∀ {m n : Memory}, m.wfFrom lo = true → n.wfFrom lo = true →
    (∀ a, memGet a m = memGet a n) → m = n
  | [], [], _, _, _ => rfl
  | [], (b, w) :: n, _, hn, h => by
    simp only [Memory.wfFrom, Bool.and_eq_true, decide_eq_true_eq] at hn
    exact absurd (by simpa [memGet] using (h b).symm) hn.1.2
  | (a, v) :: m, [], hm, _, h => by
    simp only [Memory.wfFrom, Bool.and_eq_true, decide_eq_true_eq] at hm
    exact absurd (by simpa [memGet] using h a) hm.1.2
  | (a, v) :: m, (b, w) :: n, hm, hn, h => by
    have hm' := hm
    have hn' := hn
    simp only [Memory.wfFrom, Bool.and_eq_true, decide_eq_true_eq] at hm' hn'
    have hab : a = b := by
      rcases lt_trichotomy a b with hl | he | hl
      · have := h a
        simp only [memGet, if_true, if_neg hl.ne, memGet_below (Nat.lt_succ_of_lt hl) hn'.2] at this
        exact absurd this hm'.1.2
      · exact he
      · have := h b
        simp only [memGet, if_true, if_neg hl.ne, memGet_below (Nat.lt_succ_of_lt hl) hm'.2] at this
        exact absurd this.symm hn'.1.2
    subst hab
    have hvw : v = w := by simpa [memGet] using h a
    subst hvw
    rw [Memory.eq_of_reads hm'.2 hn'.2 fun c => ?_]
    by_cases hc : c = a
    · subst hc
      rw [memGet_below (Nat.lt_succ_self c) hm'.2, memGet_below (Nat.lt_succ_self c) hn'.2]
    · simpa [memGet, hc] using h c

/-! ### Through the state -/

@[simp] theorem peek_poke_same {a v : Word} {s : State} (h : s.mem.wf = true) : peek a (poke a v s) = v :=
  memGet_memSet_same_from _ _ h

theorem peek_poke_ne {a b v : Word} {s : State} (h : s.mem.wf = true) (hb : b ≠ a) : peek b (poke a v s) = peek b s :=
  memGet_memSet_ne_from _ (fun e => hb (BitVec.eq_of_toNat_eq e)) h

theorem poke_wf {a v : Word} {s : State} (h : s.mem.wf = true) : (poke a v s).mem.wf = true :=
  wfFrom_memSet _ (Nat.zero_le _) a.isLt h

end Sys2Proof.Machine
end

