-- ==== Sys2Proof/Laws/Ops.lean ====
section
/-! SUPPORT. What the shared operations do: the keyboard update, `MemRead`, taking a decode gap, the meanings' common ends. -/

namespace Sys2Proof.Machine

/-- The keyboard update is a poll, then one store (no key) or two stores (a key). -/
theorem keyboardUpdate_cases (s : State) :
    (pollAnswer s = 0#16 ∧ keyboardUpdate s = poke kbsr 0#16 (afterPoll s)) ∨
    (pollAnswer s ≠ 0#16 ∧ keyboardUpdate s = poke kbdr (pollAnswer s)
      (poke kbsr (readyWord s.params.kbsrReadyWrite (peek kbsr s)) (afterPoll s))) := by
  by_cases h : pollAnswer s = 0#16
  · exact .inl ⟨h, by simp [keyboardUpdate, h]⟩
  · exact .inr ⟨h, by simp [keyboardUpdate, h, peek]⟩

theorem memRead_of_ne {a : Word} (s : State) (h : a ≠ kbsr) : memRead a s = (peek a s, s) := by simp [memRead, h]

theorem memRead_kbsr (s : State) : memRead kbsr s = (peek kbsr (keyboardUpdate s), keyboardUpdate s) := by simp [memRead]

/-- The word `MemRead` gives is the cell as it stands in the state it leaves. -/
theorem memRead_fst (a : Word) (s : State) : (memRead a s).1 = peek a (memRead a s).2 := rfl

/-- `MemRead` leaves everything but memory and the keyboard inputs as it was. -/
structure ReadFrame (s t : State) : Prop where
  regs : t.regs = s.regs
  pc : t.pc = s.pc
  cond : t.cond = s.cond
  status : t.status = s.status
  trapEvent : t.trapEvent = s.trapEvent
  params : t.params = s.params

theorem keyboardUpdate_frame (s : State) : ReadFrame s (keyboardUpdate s) := by
  obtain ⟨-, h⟩ | ⟨-, h⟩ := keyboardUpdate_cases s <;> rw [h] <;> exact ⟨rfl, rfl, rfl, rfl, rfl, rfl⟩

theorem memRead_frame (a : Word) (s : State) : ReadFrame s (memRead a s).2 := by
  by_cases h : a = kbsr
  · subst h
    rw [memRead_kbsr]
    exact keyboardUpdate_frame s
  · rw [memRead_of_ne s h]
    exact ⟨rfl, rfl, rfl, rfl, rfl, rfl⟩

theorem keyboardUpdate_polls (s : State) : (keyboardUpdate s).polls = s.polls + 1 := by
  obtain ⟨-, h⟩ | ⟨-, h⟩ := keyboardUpdate_cases s <;> rw [h] <;> rfl

theorem keyboardUpdate_keys (s : State) : (keyboardUpdate s).keys = s.keys.tail := by
  obtain ⟨-, h⟩ | ⟨-, h⟩ := keyboardUpdate_cases s <;> rw [h] <;> rfl

theorem keyboardUpdate_wf {s : State} (h : s.mem.wf = true) : (keyboardUpdate s).mem.wf = true := by
  obtain ⟨-, e⟩ | ⟨-, e⟩ := keyboardUpdate_cases s <;> rw [e]
  · exact poke_wf h
  · exact poke_wf (poke_wf h)

theorem memRead_wf {a : Word} {s : State} (h : s.mem.wf = true) : (memRead a s).2.mem.wf = true := by
  by_cases ha : a = kbsr
  · subst ha
    rw [memRead_kbsr]
    exact keyboardUpdate_wf h
  · rwa [memRead_of_ne s ha]

theorem memRead_polls (a : Word) (s : State) : (memRead a s).2.polls = s.polls + if a = kbsr then 1 else 0 := by
  by_cases h : a = kbsr
  · subst h
    rw [memRead_kbsr, if_pos rfl]
    exact keyboardUpdate_polls s
  · rw [memRead_of_ne s h, if_neg h]
    rfl

/-- Taking a decode gap answers a next state in which only the run status differs. -/
theorem raiseDecodeGap_eq (g : DecodeGap) (s : State) : raiseDecodeGap g s = .next { s with status := .faulted g } := rfl

/-- A load is one `MemRead` and a flag-setting register write. -/
theorem loadFrom_eq (dr : Reg) (ea : Word) (s : State) :
    loadFrom dr ea s = writeFlagged dr (memRead ea s).1 (memRead ea s).2 := rfl

end Sys2Proof.Machine
end

