-- ==== Sys2Proof/Laws/Exec.lean ====
section
/-! SUPPORT. The answer of every instruction in terms of the shared operations, and what those operations leave unchanged. -/

namespace Sys2Proof.Machine

theorem exec_addReg (dr sr1 sr2 : Reg) (s : State) :
    exec (.addReg dr sr1 sr2) s = .next (writeFlagged dr (getReg sr1 s + getReg sr2 s) s) := rfl

theorem exec_addImm (dr sr1 : Reg) (imm5 : BitVec 5) (s : State) :
    exec (.addImm dr sr1 imm5) s = .next (writeFlagged dr (getReg sr1 s + sext imm5) s) := rfl

theorem exec_andReg (dr sr1 sr2 : Reg) (s : State) :
    exec (.andReg dr sr1 sr2) s = .next (writeFlagged dr (getReg sr1 s &&& getReg sr2 s) s) := rfl

theorem exec_andImm (dr sr1 : Reg) (imm5 : BitVec 5) (s : State) :
    exec (.andImm dr sr1 imm5) s = .next (writeFlagged dr (getReg sr1 s &&& sext imm5) s) := rfl

theorem exec_not (dr sr : Reg) (s : State) :
    exec (.not dr sr) s = .next (writeFlagged dr (~~~ getReg sr s) s) := rfl

theorem exec_br (n z p : Bool) (off9 : BitVec 9) (s : State) :
    exec (.br n z p off9) s = .next (if branchTaken n z p s.cond then setPc (pcOffset9 off9 s) s else s) := rfl

theorem exec_jmp (base : Reg) (s : State) :
    exec (.jmp base) s = .next (setPc (getReg base s) s) := rfl

theorem exec_jsr (off11 : BitVec 11) (s : State) :
    exec (.jsr off11) s = .next (setPc (pcOffset11 off11 s) (link s)) := rfl

theorem exec_jsrr (base : Reg) (s : State) :
    exec (.jsrr base) s = .next (setPc (getReg base (link s)) (link s)) := rfl

theorem exec_ld (dr : Reg) (off9 : BitVec 9) (s : State) :
    exec (.ld dr off9) s = .next (loadFrom dr (pcOffset9 off9 s) s) := rfl

theorem exec_ldi (dr : Reg) (off9 : BitVec 9) (s : State) :
    exec (.ldi dr off9) s = .next (loadFrom dr (memRead (pcOffset9 off9 s) s).1 (memRead (pcOffset9 off9 s) s).2) := rfl

theorem exec_ldr (dr base : Reg) (off6 : BitVec 6) (s : State) :
    exec (.ldr dr base off6) s = .next (loadFrom dr (baseOffset6 base off6 s) s) := rfl

theorem exec_lea (dr : Reg) (off9 : BitVec 9) (s : State) :
    exec (.lea dr off9) s = .next (writeFlagged dr (pcOffset9 off9 s) s) := rfl

theorem exec_st (sr : Reg) (off9 : BitVec 9) (s : State) :
    exec (.st sr off9) s = .next (poke (pcOffset9 off9 s) (getReg sr s) s) := rfl

theorem exec_str (sr base : Reg) (off6 : BitVec 6) (s : State) :
    exec (.str sr base off6) s = .next (poke (baseOffset6 base off6 s) (getReg sr s) s) := rfl

theorem exec_rti (ir : Word) (s : State) :
    exec (.rti ir) s = .next { s with status := .faulted (.rti ir) } := rfl

theorem exec_res (ir : Word) (s : State) :
    exec (.res ir) s = .next { s with status := .faulted (.res ir) } := rfl

/-- The pointer read leaves the registers, so SR may be read in the state before it. -/
theorem exec_sti (sr : Reg) (off9 : BitVec 9) (s : State) :
    exec (.sti sr off9) s =
      .next (poke (memRead (pcOffset9 off9 s) s).1 (getReg sr s) (memRead (pcOffset9 off9 s) s).2) := by
  rw [← getReg_congr (memRead_frame (pcOffset9 off9 s) s).regs]
  rfl

/-- The table of trap vectors lies below KBSR. -/
theorem zext8_ne_kbsr (v : TrapVector) : zext8 v ≠ kbsr := by
  intro h
  have := congrArg BitVec.toNat h
  simp [zext8, kbsr] at this
  omega

/-- The vector read of TRAP never polls (R120). -/
theorem exec_trap_wired {v : TrapVector} {s : State} (h : trapWired v s = true) :
    exec (.trap v) s = .next (emitTrapEvent v (setPc (peek (zext8 v) s) (link s))) := by
  simp only [exec, execTrap, if_pos h, memRead_of_ne _ (zext8_ne_kbsr v)]
  rfl

theorem exec_trap_unwired {v : TrapVector} {s : State} (h : trapWired v s = false) :
    exec (.trap v) s = .next { s with status := .faulted (.trapUnwired v) } := by
  simp [exec, execTrap, h, raiseDecodeGap_eq]

/-- What a flag-setting register write leaves unchanged. -/
theorem getReg_writeFlagged_same (dr : Reg) (v : Word) (s : State) : getReg dr (writeFlagged dr v s) = v :=
  getReg_setReg_same dr v s

theorem getReg_writeFlagged_ne {dr r : Reg} (v : Word) (s : State) (h : r ≠ dr) :
    getReg r (writeFlagged dr v s) = getReg r s := getReg_setReg_ne v s h

@[simp] theorem writeFlagged_cond (dr : Reg) (v : Word) (s : State) : (writeFlagged dr v s).cond = classify v := by
  rw [writeFlagged_eq]

@[simp] theorem writeFlagged_pc (dr : Reg) (v : Word) (s : State) : (writeFlagged dr v s).pc = s.pc := rfl
@[simp] theorem writeFlagged_mem (dr : Reg) (v : Word) (s : State) : (writeFlagged dr v s).mem = s.mem := rfl
@[simp] theorem writeFlagged_status (dr : Reg) (v : Word) (s : State) : (writeFlagged dr v s).status = s.status := rfl
@[simp] theorem writeFlagged_trapEvent (dr : Reg) (v : Word) (s : State) :
    (writeFlagged dr v s).trapEvent = s.trapEvent := rfl
@[simp] theorem writeFlagged_keys (dr : Reg) (v : Word) (s : State) : (writeFlagged dr v s).keys = s.keys := rfl
@[simp] theorem writeFlagged_polls (dr : Reg) (v : Word) (s : State) : (writeFlagged dr v s).polls = s.polls := rfl
@[simp] theorem writeFlagged_params (dr : Reg) (v : Word) (s : State) : (writeFlagged dr v s).params = s.params := rfl

end Sys2Proof.Machine
end

