-- ==== Sys2Proof/Laws/PerInstr.lean ====
section
/-! SUPPORT. Facts about every instruction as syntax, one lemma per constructor. -/

namespace Sys2Proof.Laws

/-- The mask 0xF000 keeps the opcode field. -/
theorem mask_opcode (p : BitVec 4) (x : BitVec 12) : ((p ++ x : Word) &&& 0xF000#16) = p ++ 0#12 := by
  apply BitVec.eq_of_getLsbD_eq
  intro k hk
  rw [BitVec.getLsbD_and, BitVec.getLsbD_append, BitVec.getLsbD_append]
  interval_cases k <;> simp

/-- The mask 0xF020 keeps the opcode field and the mode bit of ADD and AND. -/
theorem mask_mode5 (p : BitVec 4) (a b : BitVec 3) (m : BitVec 1) (x : BitVec 5) :
    ((p ++ (a ++ (b ++ (m ++ x))) : Word) &&& 0xF020#16) = (p ++ (0#6 ++ (m ++ 0#5)) : Word) := by
  apply BitVec.eq_of_getLsbD_eq
  intro k hk
  rw [BitVec.getLsbD_and]
  repeat rw [BitVec.getLsbD_append]
  interval_cases k <;> simp

/-- The mask 0xF800 keeps the opcode field and the mode bit of JSR and JSRR. -/
theorem mask_mode11 (p : BitVec 4) (m : BitVec 1) (x : BitVec 11) :
    ((p ++ (m ++ x) : Word) &&& 0xF800#16) = (p ++ (m ++ 0#11) : Word) := by
  apply BitVec.eq_of_getLsbD_eq
  intro k hk
  rw [BitVec.getLsbD_and]
  repeat rw [BitVec.getLsbD_append]
  interval_cases k <;> simp

/-- A word whose opcode field is `p` meets the mask 0xF000 in `p`. -/
theorem mask_of_opcode {ir : Word} {p : BitVec 4} (h : ir.extractLsb' 12 4 = p) : (ir &&& 0xF000#16) = p ++ 0#12 := by
  subst h
  apply BitVec.eq_of_getLsbD_eq
  intro k hk
  rw [BitVec.getLsbD_and, BitVec.getLsbD_append]
  interval_cases k <;> simp

end Sys2Proof.Laws

namespace Sys2Proof.Laws.EncodeInRow

/-- The word of a well-formed instruction belongs to the instruction's own row of the opcode table. -/
def Statement (i : Instr) : Prop :=
  i.wf = true → ∃ r ∈ opcodeTable, r.name = i.rowName ∧ r.holds (encode i) = true

/-- How a constructor's lemma is proved: name the row, and show that the masked word is its pattern. -/
theorem of_row (i : Instr) (r : Row) (hr : r ∈ opcodeTable) (hn : r.name = i.rowName)
    (h : i.wf = true → (encode i &&& r.mask) = r.pattern) : Statement i :=
  fun hw => ⟨r, hr, hn, by simpa [Row.holds] using h hw⟩

theorem addReg (dr sr1 sr2 : Reg) : Statement (.addReg dr sr1 sr2) :=
  of_row _ ⟨.addReg, 0xF020#16, 0x1000#16, 0xFFE7#16⟩ (by simp [opcodeTable]) rfl fun _ => mask_mode5 0b0001#4 _ _ 0b0#1 (0b00#2 ++ sr2.toBits)

theorem addImm (dr sr1 : Reg) (imm5 : BitVec 5) : Statement (.addImm dr sr1 imm5) :=
  of_row _ ⟨.addImm, 0xF020#16, 0x1020#16, 0xFFFF#16⟩ (by simp [opcodeTable]) rfl fun _ => mask_mode5 0b0001#4 _ _ 0b1#1 imm5

theorem andReg (dr sr1 sr2 : Reg) : Statement (.andReg dr sr1 sr2) :=
  of_row _ ⟨.andReg, 0xF020#16, 0x5000#16, 0xFFE7#16⟩ (by simp [opcodeTable]) rfl fun _ => mask_mode5 0b0101#4 _ _ 0b0#1 (0b00#2 ++ sr2.toBits)

theorem andImm (dr sr1 : Reg) (imm5 : BitVec 5) : Statement (.andImm dr sr1 imm5) :=
  of_row _ ⟨.andImm, 0xF020#16, 0x5020#16, 0xFFFF#16⟩ (by simp [opcodeTable]) rfl fun _ => mask_mode5 0b0101#4 _ _ 0b1#1 imm5

theorem not (dr sr : Reg) : Statement (.not dr sr) :=
  of_row _ ⟨.not, 0xF000#16, 0x9000#16, 0xFFC0#16⟩ (by simp [opcodeTable]) rfl fun _ => mask_opcode 0b1001#4 _

theorem br (n z p : Bool) (off9 : BitVec 9) : Statement (.br n z p off9) :=
  of_row _ ⟨.br, 0xF000#16, 0x0000#16, 0xFFFF#16⟩ (by simp [opcodeTable]) rfl fun _ => mask_opcode 0b0000#4 _

theorem jmp (base : Reg) : Statement (.jmp base) :=
  of_row _ ⟨.jmp, 0xF000#16, 0xC000#16, 0xF1C0#16⟩ (by simp [opcodeTable]) rfl fun _ => mask_opcode 0b1100#4 _

theorem jsr (off11 : BitVec 11) : Statement (.jsr off11) :=
  of_row _ ⟨.jsr, 0xF800#16, 0x4800#16, 0xFFFF#16⟩ (by simp [opcodeTable]) rfl fun _ => mask_mode11 0b0100#4 0b1#1 off11

theorem jsrr (base : Reg) : Statement (.jsrr base) :=
  of_row _ ⟨.jsrr, 0xF800#16, 0x4000#16, 0xF9C0#16⟩ (by simp [opcodeTable]) rfl fun _ => mask_mode11 0b0100#4 0b0#1 (0b00#2 ++ (base.toBits ++ 0b000000#6))

theorem ld (dr : Reg) (off9 : BitVec 9) : Statement (.ld dr off9) :=
  of_row _ ⟨.ld, 0xF000#16, 0x2000#16, 0xFFFF#16⟩ (by simp [opcodeTable]) rfl fun _ => mask_opcode 0b0010#4 _

theorem ldi (dr : Reg) (off9 : BitVec 9) : Statement (.ldi dr off9) :=
  of_row _ ⟨.ldi, 0xF000#16, 0xA000#16, 0xFFFF#16⟩ (by simp [opcodeTable]) rfl fun _ => mask_opcode 0b1010#4 _

theorem ldr (dr base : Reg) (off6 : BitVec 6) : Statement (.ldr dr base off6) :=
  of_row _ ⟨.ldr, 0xF000#16, 0x6000#16, 0xFFFF#16⟩ (by simp [opcodeTable]) rfl fun _ => mask_opcode 0b0110#4 _

theorem lea (dr : Reg) (off9 : BitVec 9) : Statement (.lea dr off9) :=
  of_row _ ⟨.lea, 0xF000#16, 0xE000#16, 0xFFFF#16⟩ (by simp [opcodeTable]) rfl fun _ => mask_opcode 0b1110#4 _

theorem st (sr : Reg) (off9 : BitVec 9) : Statement (.st sr off9) :=
  of_row _ ⟨.st, 0xF000#16, 0x3000#16, 0xFFFF#16⟩ (by simp [opcodeTable]) rfl fun _ => mask_opcode 0b0011#4 _

theorem sti (sr : Reg) (off9 : BitVec 9) : Statement (.sti sr off9) :=
  of_row _ ⟨.sti, 0xF000#16, 0xB000#16, 0xFFFF#16⟩ (by simp [opcodeTable]) rfl fun _ => mask_opcode 0b1011#4 _

theorem str (sr base : Reg) (off6 : BitVec 6) : Statement (.str sr base off6) :=
  of_row _ ⟨.str, 0xF000#16, 0x7000#16, 0xFFFF#16⟩ (by simp [opcodeTable]) rfl fun _ => mask_opcode 0b0111#4 _

theorem trap (vect8 : TrapVector) : Statement (.trap vect8) :=
  of_row _ ⟨.trap, 0xF000#16, 0xF000#16, 0xF0FF#16⟩ (by simp [opcodeTable]) rfl fun _ => mask_opcode 0b1111#4 _

theorem rti (ir : Word) : Statement (.rti ir) :=
  of_row _ ⟨.rti, 0xF000#16, 0x8000#16, 0xF000#16⟩ (by simp [opcodeTable]) rfl fun hw => mask_of_opcode (ir := ir) (p := 0b1000#4) (by simpa [Instr.wf] using hw)

theorem res (ir : Word) : Statement (.res ir) :=
  of_row _ ⟨.res, 0xF000#16, 0xD000#16, 0xF000#16⟩ (by simp [opcodeTable]) rfl fun hw => mask_of_opcode (ir := ir) (p := 0b1101#4) (by simpa [Instr.wf] using hw)

end Sys2Proof.Laws.EncodeInRow
end

