-- ==== Sys2Proof/Laws/Run.lean ====
section
/-! SUPPORT. The step in its two cases, a run of several steps, the loader's writes and the host's moves. -/

namespace Sys2Proof.Machine

/-- A step answers a next state in one of two ways: FAULTED and unchanged, or RUNNING and the decoded instruction's answer
in the state after fetch and increment. -/
theorem step_cases {s t : State} (h : step s = .next t) :
    ((∃ g, s.status = .faulted g) ∧ t = s) ∨
    (s.status = .running ∧
      exec (decodeWord (memRead s.pc (beginStep s)).1) (advancePc (memRead s.pc (beginStep s)).2) = .next t) := by
  unfold step at h
  split at h
  · cases h
    exact .inl ⟨⟨_, ‹_›⟩, rfl⟩
  · exact .inr ⟨‹_›, h⟩

/-- The host's run takes the machine's steps. -/
theorem core_run_succ (n : Nat) {s t : State} (h : step s = .next t) : core.run (n + 1) s = core.run n t := by
  have h' : core.step s = .next t := h
  simp only [Host.Core.run, h']

@[simp] theorem loadImage_nil (s : State) : loadImage [] s = s := rfl

@[simp] theorem loadImage_cons (c : Word × Word) (image : List (Word × Word)) (s : State) :
    loadImage (c :: image) s = loadImage image (loadWrite c.1 c.2 s) := rfl

/-- The loader's writes change memory only. -/
theorem loadImage_frame (image : List (Word × Word)) (s : State) : ∃ m, loadImage image s = { s with mem := m } := by
  induction image generalizing s with
  | nil => exact ⟨s.mem, rfl⟩
  | cons c image ih =>
    obtain ⟨m, hm⟩ := ih (loadWrite c.1 c.2 s)
    exact ⟨m, hm⟩

theorem loadImage_wf (image : List (Word × Word)) {s : State} (h : s.mem.wf = true) : (loadImage image s).mem.wf = true := by
  induction image generalizing s with
  | nil => exact h
  | cons c image ih => exact ih (poke_wf h)

@[simp] theorem resetPort_inv (s : State) : (resetPort s).Inv := ⟨rfl, rfl⟩

/-- Everything one move of the host can do. -/
theorem hostMove_cases {p q : HostPhase} {s t : State} (h : HostMove p s q t) :
    (q = .loading ∧ t = resetPort s) ∨ (p = .loading ∧ q = .loading ∧ ∃ a v, t = loadWrite a v s) ∨
    (p ≠ .beforeReset ∧ q = .stepping ∧ step s = .next t) := by
  cases h with
  | reset => exact .inl ⟨rfl, rfl⟩
  | load a v => exact .inr (.inl ⟨rfl, rfl, a, v, rfl⟩)
  | step hp ht => exact .inr (.inr ⟨hp, rfl, ht⟩)

end Sys2Proof.Machine
end

