-- ==== Sys2Proof/Tests/Slice0.lean ====
section
/-! SUPPORT. Tests from the spec's own words and vectors (95_test_vectors.md), and a witness for the hypotheses of every
statement that has some. -/

namespace Sys2Proof.Tests

open Machine Spec

/-! ### Decoding: one word per constructor, written out from the whole-word pictures of 30_encoding section 2 -/

theorem test_decode_addReg : decodeTableWord 16 0b0001_001_000_0_00_010 = some (.addReg .r1 .r0 .r2) := by decide
theorem test_decode_addImm : decodeTableWord 16 0b0001_000_001_1_01111 = some (.addImm .r0 .r1 15#5) := by decide
theorem test_decode_andReg : decodeTableWord 16 0b0101_010_011_0_00_100 = some (.andReg .r2 .r3 .r4) := by decide
theorem test_decode_andImm : decodeTableWord 16 0b0101_001_001_1_10000 = some (.andImm .r1 .r1 16#5) := by decide
theorem test_decode_not : decodeTableWord 16 0b1001_001_000_111111 = some (.not .r1 .r0) := by decide
theorem test_decode_br : decodeTableWord 16 0b0000_1_0_1_111111101 = some (.br true false true 0x1FD#9) := by decide
theorem test_decode_jmp : decodeTableWord 16 0b1100_000_011_000000 = some (.jmp .r3) := by decide
theorem test_decode_jsr : decodeTableWord 16 0b0100_1_10000000001 = some (.jsr 0x401#11) := by decide
theorem test_decode_jsrr : decodeTableWord 16 0b0100_0_00_010_000000 = some (.jsrr .r2) := by decide
theorem test_decode_ld : decodeTableWord 16 0b0010_010_000000101 = some (.ld .r2 5#9) := by decide
theorem test_decode_ldi : decodeTableWord 16 0b1010_011_000000010 = some (.ldi .r3 2#9) := by decide
theorem test_decode_ldr : decodeTableWord 16 0b0110_001_010_111111 = some (.ldr .r1 .r2 0x3F#6) := by decide
theorem test_decode_lea : decodeTableWord 16 0b1110_001_111111110 = some (.lea .r1 0x1FE#9) := by decide
theorem test_decode_st : decodeTableWord 16 0b0011_011_000000010 = some (.st .r3 2#9) := by decide
theorem test_decode_sti : decodeTableWord 16 0b1011_101_111111111 = some (.sti .r5 0x1FF#9) := by decide
theorem test_decode_str : decodeTableWord 16 0b0111_000_110_111111 = some (.str .r0 .r6 0x3F#6) := by decide
theorem test_decode_trap : decodeTableWord 16 0b1111_0000_00100101 = some (.trap 0x25#8) := by decide
theorem test_decode_rti : decodeTableWord 16 0b1000_111111111111 = some (.rti 0x8FFF#16) := by decide
theorem test_decode_res : decodeTableWord 16 0b1101_101010111100 = some (.res 0xDABC#16) := by decide

/-- A row has 16 bits: anything that does not fit one word is refused. -/
theorem test_decode_refuses_two_words : decodeTableWord 32 0x10001 = none := by decide

/-- The rows of the table exclude each other. -/
theorem test_rows_do_not_overlap :
    opcodeTable.Pairwise fun a b => a.mask &&& b.mask &&& (a.pattern ^^^ b.pattern) ≠ 0#16 := by decide

/-! ### Well-formedness: an ill-formed term for each check -/

theorem test_wf_refuses_rti_with_another_opcode : (Instr.rti 0xD000#16).wf = false := by decide
theorem test_wf_refuses_res_with_another_opcode : (Instr.res 0x8000#16).wf = false := by decide

/-! ### One step each, the vectors of 95_test_vectors sections 1 to 3 (the vector's id in the comment) -/

/-- A RUNNING machine about to fetch `ir` from `pc`; everything else as after reset. -/
def ready (pc ir : Word) : State := poke pc ir { State.reset with pc := pc }

/-- The step answers a next state that passes the check. -/
def after (s : State) (p : State → Bool) : Bool :=
  match step s with
  | .next t => p t
  | .fault _ => false
  | .refused _ => false

/-- A2 -/
theorem test_add_signed_overflow_is_silent :
    after (setReg .r4 0x0001#16 (setReg .r3 0x7FFF#16 (ready 0x3000#16 0x16C4#16)))
      (fun t => getReg .r3 t == 0x8000#16 && t.cond == .neg && t.pc == 0x3001#16) = true := by decide

/-- A3 -/
theorem test_add_drops_carry :
    after (setReg .r1 0x0001#16 (setReg .r0 0xFFFF#16 (ready 0x3000#16 0x1001#16)))
      (fun t => getReg .r0 t == 0x0000#16 && t.cond == .zro) = true := by decide

/-- S3 -/
theorem test_addImm_source_vector :
    after (ready 0x3000#16 0x106F#16)
      (fun t => getReg .r0 t == 0x000F#16 && t.cond == .pos) = true := by decide

/-- A5 -/
theorem test_addImm_negative :
    after (setReg .r5 0x0010#16 (ready 0x3000#16 0x1570#16))
      (fun t => getReg .r2 t == 0x0000#16 && t.cond == .zro) = true := by decide

/-- A10 -/
theorem test_andReg :
    after (setReg .r4 0x3C3C#16 (setReg .r3 0xF0F0#16 (ready 0x3000#16 0x54C4#16)))
      (fun t => getReg .r2 t == 0x3030#16 && t.cond == .pos) = true := by decide

/-- A15 -/
theorem test_andReg_ignores_bits_4_3 :
    after (setReg .r4 0x3C3C#16 (setReg .r3 0xF0F0#16 (ready 0x3000#16 0x54DC#16)))
      (fun t => getReg .r2 t == 0x3030#16) = true := by decide

/-- A13 -/
theorem test_andImm_negative_keeps_upper_bits :
    after (setReg .r1 0xABCD#16 (ready 0x3000#16 0x5270#16))
      (fun t => getReg .r1 t == 0xABC0#16 && t.cond == .neg) = true := by decide

/-- A14 -/
theorem test_andImm_positive :
    after (setReg .r3 0x1234#16 (ready 0x3000#16 0x56EF#16))
      (fun t => getReg .r3 t == 0x0004#16 && t.cond == .pos) = true := by decide

/-- A18 -/
theorem test_not_in_place :
    after (setReg .r0 0xFFFF#16 (ready 0x3000#16 0x903F#16))
      (fun t => getReg .r0 t == 0x0000#16 && t.cond == .zro) = true := by decide

/-- A19 -/
theorem test_not_ignores_low_bits :
    after (ready 0x3000#16 0x9200#16)
      (fun t => getReg .r1 t == 0xFFFF#16 && t.cond == .neg) = true := by decide

/-- B4 -/
theorem test_br_wraps :
    after ({ ready 0xFFFF#16 0x0E01#16 with cond := .neg })
      (fun t => t.pc == 0x0001#16 && t.cond == .neg) = true := by decide

/-- B6 -/
theorem test_br_not_taken_after_reset :
    after (ready 0x3000#16 0x0E05#16)
      (fun t => t.pc == 0x3001#16 && t.cond == .none) = true := by decide

/-- J3 -/
theorem test_jmp_ignores_other_bits :
    after (setReg .r3 0x4000#16 (ready 0x3000#16 0xCEFF#16))
      (fun t => t.pc == 0x4000#16) = true := by decide

/-- J2 -/
theorem test_ret :
    after (setReg .r7 0x3005#16 (ready 0x4002#16 0xC1C0#16))
      (fun t => t.pc == 0x3005#16 && getReg .r7 t == 0x3005#16) = true := by decide

/-- J5 -/
theorem test_jsr_source_vector :
    after (ready 0x2FFF#16 0x4801#16)
      (fun t => t.pc == 0x3001#16 && getReg .r7 t == 0x3000#16) = true := by decide

/-- J6 -/
theorem test_jsr_backwards :
    after (ready 0x3000#16 0x4C00#16)
      (fun t => t.pc == 0x2C01#16 && getReg .r7 t == 0x3001#16) = true := by decide

/-- J11 -/
theorem test_jsrr_r7_reads_the_link :
    after (setReg .r7 0x3000#16 (ready 0x3001#16 0x41C0#16))
      (fun t => t.pc == 0x3002#16 && getReg .r7 t == 0x3002#16) = true := by decide

/-- J12 -/
theorem test_jsrr_ignores_other_bits :
    after (setReg .r2 0x5000#16 (ready 0x3000#16 0x46BF#16))
      (fun t => t.pc == 0x5000#16 && getReg .r7 t == 0x3001#16) = true := by decide

/-- L1 -/
theorem test_ld :
    after (poke 0x3006#16 0x8001#16 (ready 0x3000#16 0x2405#16))
      (fun t => getReg .r2 t == 0x8001#16 && t.cond == .neg && t.pc == 0x3001#16) = true := by decide

/-- K15 -/
theorem test_ld_from_kbsr_polls :
    after ({ ready 0xFDFE#16 0x2001#16 with keys := [0x0041#16] })
      (fun t => getReg .r0 t == 0x8000#16 && t.cond == .neg && peek 0xFE02#16 t == 0x0041#16 && t.polls == 1) = true := by decide

/-- L7 -/
theorem test_ldi_source_vector :
    after (poke 0x01F4#16 0x007B#16 (poke 0x3000#16 0x01F4#16 (ready 0x2FFF#16 0xA000#16)))
      (fun t => getReg .r0 t == 123#16 && t.cond == .pos && t.pc == 0x3000#16) = true := by decide

/-- K22 -/
theorem test_ldi_polls_twice_under_or :
    after ({ poke 0xFE00#16 0x7E00#16 (ready 0xFDFE#16 0xA001#16) with keys := [0x0041#16, 0x0042#16], params := ⟨[], [], .or⟩ })
      (fun t => getReg .r0 t == 0xFE00#16 && peek 0xFE02#16 t == 0x0042#16 && peek 0xFE00#16 t == 0xFE00#16 && t.polls == 2) = true := by decide

/-- L13 -/
theorem test_ldr_wraps_below_zero :
    after (poke 0xFFF0#16 0x9000#16 (setReg .r1 0x0010#16 (ready 0x3000#16 0x6060#16)))
      (fun t => getReg .r0 t == 0x9000#16 && t.cond == .neg) = true := by decide

/-- L14 -/
theorem test_ldr_base_is_destination :
    after (poke 0x4000#16 0x4001#16 (setReg .r1 0x4000#16 (ready 0x3000#16 0x6240#16)))
      (fun t => getReg .r1 t == 0x4001#16) = true := by decide

/-- L15 -/
theorem test_lea_source_vector :
    after (ready 0x2FFF#16 0xE001#16)
      (fun t => getReg .r0 t == 0x3001#16 && t.cond == .pos && t.polls == 0) = true := by decide

/-- L17 -/
theorem test_lea_wraps :
    after (setReg .r0 0x1234#16 (ready 0xFFFF#16 0xE000#16))
      (fun t => getReg .r0 t == 0x0000#16 && t.cond == .zro && t.pc == 0x0000#16) = true := by decide

/-- T3 -/
theorem test_st_wraps :
    after (setReg .r7 0x00AA#16 (ready 0xFFFE#16 0x3EFF#16))
      (fun t => peek 0x00FE#16 t == 0x00AA#16 && t.pc == 0xFFFF#16) = true := by decide

/-- T2 -/
theorem test_st_overwrites_itself :
    after (setReg .r0 0x1234#16 (ready 0x3000#16 0x31FF#16))
      (fun t => peek 0x3000#16 t == 0x1234#16 && t.cond == .none) = true := by decide

/-- T5 -/
theorem test_sti_overwrites_its_pointer :
    after (poke 0x3001#16 0x3001#16 (setReg .r1 0x5A5A#16 (ready 0x3000#16 0xB200#16)))
      (fun t => peek 0x3001#16 t == 0x5A5A#16) = true := by decide

/-- K12 -/
theorem test_sti_pointer_read_polls :
    after ({ setReg .r1 0x1234#16 (ready 0xFDFE#16 0xB201#16) with keys := [0x0041#16] })
      (fun t => peek 0x8000#16 t == 0x1234#16 && peek 0xFE00#16 t == 0x8000#16 && peek 0xFE02#16 t == 0x0041#16) = true := by decide

/-- T8 -/
theorem test_str_wraps :
    after (setReg .r1 0xFFF0#16 (setReg .r0 0x0BAD#16 (ready 0x3000#16 0x705F#16)))
      (fun t => peek 0x000F#16 t == 0x0BAD#16) = true := by decide

/-- T9 -/
theorem test_str_base_is_source :
    after (setReg .r1 0x4000#16 (ready 0x3000#16 0x7240#16))
      (fun t => peek 0x4000#16 t == 0x4000#16) = true := by decide

/-- Y5 -/
theorem test_trap_zero_extends :
    after (poke 0xFF80#16 0x0666#16 (poke 0x0080#16 0x0500#16 (ready 0x3000#16 0xF080#16)))
      (fun t => t.pc == 0x0500#16 && getReg .r7 t == 0x3001#16 && t.trapEvent == some 0x80#8) = true := by decide

/-- Y6 -/
theorem test_trap_unwired :
    after ({ setReg .r7 0x1111#16 (poke 0x0025#16 0x0400#16 (ready 0x3000#16 0xF025#16)) with params := ⟨[0x25#8], [], .assign⟩ })
      (fun t => t.pc == 0x3001#16 && getReg .r7 t == 0x1111#16 && t.status == .faulted (.trapUnwired 0x25#8) && t.trapEvent == none) = true := by decide

/-- Y7 -/
theorem test_rti :
    after ({ ready 0x3002#16 0x8000#16 with cond := .pos })
      (fun t => t.pc == 0x3003#16 && t.cond == .pos && t.status == .faulted (.rti 0x8000#16)) = true := by decide

/-- Y8 -/
theorem test_rti_ignores_low_bits :
    after (ready 0x3000#16 0x8FFF#16)
      (fun t => t.pc == 0x3001#16 && t.status == .faulted (.rti 0x8FFF#16)) = true := by decide

/-- Y10 -/
theorem test_res :
    after (ready 0xFFFF#16 0xDABC#16)
      (fun t => t.pc == 0x0000#16 && t.status == .faulted (.res 0xDABC#16)) = true := by decide

/-- Z5 -/
theorem test_fault_is_absorbing :
    after ({ ready 0x3000#16 0x1021#16 with status := .faulted (.res 0xD000#16) })
      (fun t => t.pc == 0x3000#16 && t.status == .faulted (.res 0xD000#16)) = true := by decide

/-! ### The keyboard, reset, loading -/

/-- K4: a poll without a key clears KBSR and leaves KBDR. -/
theorem test_poll_without_key :
    let t := keyboardUpdate { poke 0xFE02#16 0x0041#16 (poke 0xFE00#16 0x8000#16 State.reset) with keys := [0x0000#16] }
    peek 0xFE00#16 t = 0x0000#16 ∧ peek 0xFE02#16 t = 0x0041#16 := by decide

/-- K9b: under `or`, bits a program stored survive the ready bit. -/
theorem test_ready_write_or :
    let t := keyboardUpdate { poke 0xFE00#16 0x00FF#16 State.reset with keys := [0x0041#16], params := ⟨[], [], .or⟩ }
    peek 0xFE00#16 t = 0x80FF#16 := by decide

/-- K17: a fetch from KBSR with a key ready faults. -/
theorem test_fetch_from_kbsr :
    after { State.reset with pc := 0xFE00#16, keys := [0x0041#16] }
      (fun t => t.pc == 0xFE01#16 && t.status == .faulted (.rti 0x8000#16) && peek 0xFE02#16 t == 0x0041#16) = true := by
  decide

/-- K19: a fetch from KBDR is plain. -/
theorem test_fetch_from_kbdr :
    after (ready 0xFE02#16 0x1021#16) (fun t => getReg .r0 t == 0x0001#16 && t.pc == 0xFE03#16 && t.polls == 0) = true := by
  decide

/-- Z4: the last write of the loader wins. -/
theorem test_loader_last_write_wins :
    after (State.loaded Params.default [] [(0x3000#16, 0xD000#16), (0x3000#16, 0x1021#16)])
      (fun t => getReg .r0 t == 0x0001#16 && t.status == .running) = true := by decide

/-- Z6: reset leaves FAULTED and clears memory. -/
theorem test_reset_leaves_faulted :
    resetPort { ready 0x3001#16 0xD000#16 with status := .faulted (.res 0xD000#16) } = State.reset := by decide

/-- R140: a state is final after the event of a halt vector, and only then. -/
theorem test_final :
    State.final { State.reset with trapEvent := some 0x25#8, params := ⟨[], [0x25#8], .assign⟩ } = true ∧
    State.final { State.reset with trapEvent := some 0x25#8 } = false := by decide

/-- The placed word is what the next step runs, from reset and from a PC at KBSR. -/
theorem test_withFetchWord :
    after (State.reset.withFetchWord 16 0x1021) (fun t => getReg .r0 t == 0x0001#16) = true ∧
    after ({ State.reset with pc := kbsr }.withFetchWord 16 0x1021) (fun t => getReg .r0 t == 0x0001#16) = true := by decide

/-- R139: the observation port reads the stored cell of KBSR. -/
theorem test_observe_kbsr : observe (.cell 0xFE00#16) (poke 0xFE00#16 0x1234#16 State.reset) = 0x1234#16 := by decide

/-! ### Witnesses: concrete values that meet the hypotheses of each statement -/

theorem witness_DecodeOfEncode :
    (Instr.rti 0x8FFF#16).wf = true ∧ (Instr.res 0xD000#16).wf = true :=
  by decide

theorem witness_EncodeOfDecodeOnExaminedBits :
    ∃ r ∈ opcodeTable, r.holds 0xFFFF#16 = true :=
  by decide

theorem witness_EveryWordSelectsOneRow :
    State.reset.status = .running :=
  by decide

theorem witness_IgnoredBitsDoNotMatter :
    ∃ r ∈ opcodeTable, r.name ≠ .rti ∧ r.name ≠ .res ∧ r.holds 0x923F#16 = true ∧
      0x9200#16 &&& r.examined = 0x923F#16 &&& r.examined :=
  by decide

theorem witness_SignExtensionValue :
    (1 ≤ 1 ∧ 1 ≤ 16) ∧ (1 ≤ 16 ∧ 16 ≤ 16) ∧ sext 1#1 = 0xFFFF#16 ∧ sext 0x8000#16 = 0x8000#16 :=
  by decide

theorem witness_MemReadInterceptsOnlyKbsr :
    (0xFE01#16 : Word) ≠ 0xFE00#16 ∧ kbsr = 0xFE00#16 :=
  by decide

theorem witness_KeyboardUpdateEffect :
    ∃ s u v : State, s.mem.wf = true ∧ s.keys = [0#16] ∧ pollAnswer s = 0#16 ∧
      u.mem.wf = true ∧ pollAnswer u ≠ 0#16 ∧ u.params.kbsrReadyWrite = .assign ∧
      v.mem.wf = true ∧ pollAnswer v ≠ 0#16 ∧ v.params.kbsrReadyWrite = .or :=
  ⟨{ State.reset with keys := [0#16] }, { State.reset with keys := [0x41#16] },
    { State.reset with keys := [0x41#16], params := ⟨[], [], .or⟩ }, by decide⟩

theorem witness_MemWriteStoresAndNothingElse :
    (poke 0xFE00#16 0x1234#16 State.reset).mem.wf = true :=
  by decide

theorem witness_AddRegisterForm :
    0x105A#16 &&& 0xF020#16 = 0x1000#16 :=
  by decide

theorem witness_AddImmediateForm :
    0x106F#16 &&& 0xF020#16 = 0x1020#16 :=
  by decide

theorem witness_AndRegisterForm :
    0x54DC#16 &&& 0xF020#16 = 0x5000#16 :=
  by decide

theorem witness_AndImmediateForm :
    0x5270#16 &&& 0xF020#16 = 0x5020#16 :=
  by decide

theorem witness_NotComplements :
    0x9200#16 &&& 0xF000#16 = 0x9000#16 :=
  by decide

theorem witness_JumpToSubroutine :
    0x4FFF#16 &&& 0xF800#16 = 0x4800#16 :=
  by decide

theorem witness_JumpToSubroutineRegister :
    0x46BF#16 &&& 0xF800#16 = 0x4000#16 :=
  by decide

theorem witness_JumpToRegister :
    0xCEFF#16 &&& 0xF000#16 = 0xC000#16 :=
  by decide

theorem witness_LoadEffectiveAddress :
    0xE3FE#16 &&& 0xF000#16 = 0xE000#16 :=
  by decide

theorem witness_RtiFaults :
    0x8FFF#16 &&& 0xF000#16 = 0x8000#16 :=
  by decide

theorem witness_ResFaults :
    0xDABC#16 &&& 0xF000#16 = 0xD000#16 :=
  by decide

theorem witness_BranchOnCondition :
    0x0E05#16 &&& 0xF000#16 = 0x0000#16 :=
  by decide

theorem witness_LoadPcRelative :
    0x2405#16 &&& 0xF000#16 = 0x2000#16 ∧ (ready 0x3000#16 0x2405#16).mem.wf = true :=
  by decide

theorem witness_LoadIndirect :
    0xA001#16 &&& 0xF000#16 = 0xA000#16 ∧ (ready 0x3000#16 0xA001#16).mem.wf = true :=
  by decide

theorem witness_LoadBaseOffset :
    0x62BF#16 &&& 0xF000#16 = 0x6000#16 ∧ (ready 0x3000#16 0x62BF#16).mem.wf = true :=
  by decide

theorem witness_StorePcRelative :
    0x31FF#16 &&& 0xF000#16 = 0x3000#16 ∧ (ready 0x3000#16 0x31FF#16).mem.wf = true :=
  by decide

theorem witness_StoreIndirect :
    0xB201#16 &&& 0xF000#16 = 0xB000#16 ∧ (ready 0x3000#16 0xB201#16).mem.wf = true :=
  by decide

theorem witness_StoreBaseOffset :
    0x71BF#16 &&& 0xF000#16 = 0x7000#16 ∧ (ready 0x3000#16 0x71BF#16).mem.wf = true :=
  by decide

theorem witness_TrapOnWiredVector :
    0xFF25#16 &&& 0xF000#16 = 0xF000#16 ∧ 0x25#8 ∉ State.reset.params.unwired :=
  by decide

theorem witness_TrapOnUnwiredVector :
    0x25#8 ∈ { State.reset with params := ⟨[0x25#8], [], .assign⟩ }.params.unwired :=
  by decide

theorem witness_StepRunsDecodedInstruction :
    ∃ (s s1 u : State) (ir : Word) (g : DecodeGap), s.status = .running ∧
      memRead s.pc { s with trapEvent := none } = (ir, s1) ∧ s.pc ≠ 0xFE00#16 ∧ u.status = .faulted g :=
  ⟨State.reset, State.reset, { State.reset with status := .faulted (.res 0xD000#16) }, 0#16, .res 0xD000#16, by decide⟩

theorem witness_FetchFromKbsr :
    ∃ s u : State, (s.mem.wf = true ∧ s.status = .running ∧ s.pc = 0xFE00#16 ∧ s.params.kbsrReadyWrite = .assign ∧
      pollAnswer s = 0#16) ∧ u.mem.wf = true ∧ u.status = .running ∧ u.pc = 0xFE00#16 ∧ u.params.kbsrReadyWrite = .assign ∧
      pollAnswer u ≠ 0#16 :=
  ⟨{ State.reset with pc := 0xFE00#16, keys := [0#16] }, { State.reset with pc := 0xFE00#16, keys := [0x41#16] }, by decide⟩

theorem witness_OnlyDecodeGapsFault :
    ∃ (s t s1 : State) (ir : Word), s.status = .running ∧ memRead s.pc { s with trapEvent := none } = (ir, s1) ∧
      step s = .next t ∧ gapOf ir s = some (.res 0xD000#16) :=
  ⟨ready 0x3000#16 0xD000#16, _, _, _, rfl, rfl, rfl, by decide⟩

theorem witness_FlagWritersAndReader :
    ∃ s t : State, exec (.lea .r0 0#9) s = .next t ∧ flagDest (.lea .r0 0#9) = some .r0 ∧ isBr (.lea .r0 0#9) = false ∧
      flagDest (.st .r0 0#9) = none :=
  ⟨State.reset, _, rfl, by decide⟩

theorem witness_RegisterWriters :
    ∃ s t : State, exec (.jsr 1#11) s = .next t ∧ destReg (.jsr 1#11) ≠ some .r0 :=
  ⟨State.reset, _, rfl, by decide⟩

theorem witness_MemoryWriters :
    ∃ s t : State, s.mem.wf = true ∧ exec (.st .r0 1#9) s = .next t ∧ storeAddress (.st .r0 1#9) s ≠ some 0xFE00#16 ∧
      t.polls = s.polls :=
  ⟨State.reset, _, rfl, rfl, by decide, rfl⟩

theorem witness_PollsPerStep :
    ∃ s t : State, s.mem.wf = true ∧ step s = .next t ∧ s.params.kbsrReadyWrite = .assign :=
  ⟨State.reset, _, rfl, rfl, rfl⟩

theorem witness_NoPollNoKeyboardInfluence :
    ∃ s t : State, step s = .next t ∧ t.polls = s.polls :=
  ⟨State.reset, _, rfl, rfl⟩

theorem witness_StoreIsSeenByNextFetch :
    ∃ s t : State, s.mem.wf = true ∧ s.status = .running ∧ storedReg (.st .r0 0#9) = some .r0 ∧
      storeAddress (.st .r0 0#9) s = some s.pc ∧ s.pc ≠ 0xFE00#16 ∧ exec (.st .r0 0#9) s = .next t :=
  ⟨State.reset, _, rfl, rfl, rfl, rfl, by decide, rfl⟩

theorem witness_EmptyMemoryOnlyCountsUp :
    State.reset.status = .running ∧ State.reset.mem = [] ∧ State.reset.pc.toNat + 0xCE00 ≤ 0xFE00 :=
  by decide

theorem witness_TrapEventMeansTrap :
    ∃ (s t s1 : State) (ir : Word), s.status = .running ∧ memRead s.pc { s with trapEvent := none } = (ir, s1) ∧
      step s = .next t ∧ t.trapEvent = some 0x25#8 :=
  ⟨ready 0x3000#16 0xF025#16, _, _, _, rfl, rfl, rfl, rfl⟩

theorem witness_StepKeepsParams :
    ∃ s t : State, step s = .next t :=
  ⟨State.reset, _, rfl⟩

theorem witness_FlagsStaySet :
    ∃ s t : State, s.cond ≠ .none ∧ step s = .next t :=
  ⟨{ State.reset with cond := .pos }, _, by decide, rfl⟩

theorem witness_StepKeepsInvariant :
    ∃ s t : State, s.Inv ∧ step s = .next t :=
  ⟨State.reset, _, ⟨rfl, rfl⟩, rfl⟩

theorem witness_ReachableMeetsInvariant :
    Reachable (State.loaded Params.default [] [(0x3000#16, 0x1021#16)]) :=
  ⟨.loading, by decide, .move (.move (.start State.reset) (.reset _ _)) (.load _ _ _)⟩

/-- R141: a load after a reset in the middle of a run. -/
theorem witness_HostMovesAfterReset :
    ∃ t : State, HostReaches .stepping t ∧ HostMove .stepping t .loading (resetPort t) ∧
      Reachable (loadWrite 0x3000#16 0x1021#16 (resetPort t)) ∧
      HostMove .beforeReset t .loading (resetPort t) :=
  have h : ∃ t, HostReaches .stepping t :=
    ⟨_, .move (.move (.start State.reset) (.reset _ _)) (.step (by decide) rfl)⟩
  let ⟨t, ht⟩ := h
  ⟨t, ht, .reset _ _, ⟨.loading, by decide, .move (.move ht (.reset _ _)) (.load _ _ _)⟩, .reset _ _⟩

end Sys2Proof.Tests
end

/-! ## Proofs: the state (10_state.md) -/

section

namespace Sys2Proof.Machine

open Sys2Proof.Spec

/-! ### Classification (R16) -/

/-- The one place where the branches of `classify` meet the value ranges of R16. -/
theorem flagsDescribe_classify (v : Word) : FlagsDescribe (classify v) v := by
  have hzero : v = 0#16 ↔ v.toNat = 0 := BitVec.toNat_inj.symm
  have hneg : v.msb = true ↔ 0x8000 ≤ v.toNat := by simp [BitVec.msb_eq_decide]
  rw [classify_eq]
  unfold FlagsDescribe
  split
  next hz => simp [hzero.mp hz]
  next hz =>
    have hpos : v.toNat ≠ 0 := mt hzero.mpr hz
    split
    next hm =>
      have := hneg.mp hm
      simp only [reduceCtorEq, false_iff, true_iff]
      omega
    next hm =>
      have := mt hneg.mpr hm
      simp only [reduceCtorEq, false_iff, true_iff]
      omega

theorem classify_ne_none (v : Word) : classify v ≠ .none := by
  unfold classify
  split
  · decide
  · split <;> decide

/-- Settles O8. -/
theorem classifyByValue : Obligations.ClassifyByValue :=
  fun v => ⟨flagsDescribe_classify v, classify_ne_none v⟩

/-! ### The reset values (R25) -/

@[simp] theorem getReg_reset (r : Reg) : getReg r State.reset = 0#16 := by cases r <;> rfl

@[simp] theorem peek_reset (a : Word) : peek a State.reset = 0#16 := rfl

/-- Settles O50: the registers and the cells by their lemmas, the other fields as `State.reset` gives them. -/
theorem resetValues : Obligations.ResetValues :=
  ⟨getReg_reset, rfl, rfl, rfl, peek_reset, rfl⟩

/-! ### COND as an input (R18): the state with another COND, and what the shared operations make of it -/

/-- `cond <- c`: the state in which only COND differs. -/
def setCond (c : Cond) (s : State) : State := { s with cond := c }

@[simp] theorem setCond_cond (c : Cond) (s : State) : (setCond c s).cond = c := rfl
@[simp] theorem setCond_pc (c : Cond) (s : State) : (setCond c s).pc = s.pc := rfl
@[simp] theorem setCond_self (s : State) : setCond s.cond s = s := rfl
@[simp] theorem getReg_setCond (r : Reg) (c : Cond) (s : State) : getReg r (setCond c s) = getReg r s := rfl
@[simp] theorem peek_setCond (a : Word) (c : Cond) (s : State) : peek a (setCond c s) = peek a s := rfl
@[simp] theorem pcOffset9_setCond (o : BitVec 9) (c : Cond) (s : State) : pcOffset9 o (setCond c s) = pcOffset9 o s := rfl
@[simp] theorem baseOffset6_setCond (b : Reg) (o : BitVec 6) (c : Cond) (s : State) :
    baseOffset6 b o (setCond c s) = baseOffset6 b o s := rfl

theorem poke_setCond (a v : Word) (c : Cond) (s : State) : poke a v (setCond c s) = setCond c (poke a v s) := rfl

/-- A flag-setting register write forgets the COND before it. -/
@[simp] theorem writeFlagged_setCond (dr : Reg) (v : Word) (c : Cond) (s : State) :
    writeFlagged dr v (setCond c s) = writeFlagged dr v s := rfl

theorem keyboardUpdate_setCond (c : Cond) (s : State) :
    keyboardUpdate (setCond c s) = setCond c (keyboardUpdate s) := by
  have hpoll : pollAnswer (setCond c s) = pollAnswer s := rfl
  by_cases h : pollAnswer s = 0#16
  · simp only [keyboardUpdate, hpoll, if_pos h]
    rfl
  · simp only [keyboardUpdate, hpoll, if_neg h]
    rfl

/-- `MemRead` neither reads nor writes COND. -/
theorem memRead_setCond (a : Word) (c : Cond) (s : State) :
    memRead a (setCond c s) = ((memRead a s).1, setCond c (memRead a s).2) := by
  by_cases h : a = kbsr
  · rw [h, memRead_kbsr, memRead_kbsr, keyboardUpdate_setCond, peek_setCond]
  · rw [memRead_of_ne _ h, memRead_of_ne _ h, peek_setCond]

theorem memRead_setCond_fst (a : Word) (c : Cond) (s : State) : (memRead a (setCond c s)).1 = (memRead a s).1 := by
  rw [memRead_setCond]

theorem memRead_setCond_snd (a : Word) (c : Cond) (s : State) :
    (memRead a (setCond c s)).2 = setCond c (memRead a s).2 := by
  rw [memRead_setCond]

theorem loadFrom_setCond (dr : Reg) (ea : Word) (c : Cond) (s : State) :
    loadFrom dr ea (setCond c s) = loadFrom dr ea s := by
  rw [loadFrom_eq, loadFrom_eq, memRead_setCond_fst, memRead_setCond_snd, writeFlagged_setCond]

/-! ### The writers of COND, and the instructions that neither write nor read it (R18) -/

/-- An instruction that sets flags ends in one flag-setting write to its DR, the same whatever COND held before. -/
theorem exec_of_flagDest {i : Instr} {dr : Reg} (h : flagDest i = some dr) (s : State) :
    ∃ (v : Word) (s1 : State), ∀ c, exec i (setCond c s) = .next (writeFlagged dr v s1) := by
  cases i with
  | addReg d sr1 sr2 => cases h; exact ⟨getReg sr1 s + getReg sr2 s, s, fun _ => exec_addReg ..⟩
  | addImm d sr1 imm5 => cases h; exact ⟨getReg sr1 s + sext imm5, s, fun _ => exec_addImm ..⟩
  | andReg d sr1 sr2 => cases h; exact ⟨getReg sr1 s &&& getReg sr2 s, s, fun _ => exec_andReg ..⟩
  | andImm d sr1 imm5 => cases h; exact ⟨getReg sr1 s &&& sext imm5, s, fun _ => exec_andImm ..⟩
  | not d sr => cases h; exact ⟨~~~ getReg sr s, s, fun _ => exec_not ..⟩
  | lea d off9 => cases h; exact ⟨pcOffset9 off9 s, s, fun _ => exec_lea ..⟩
  | ld d off9 =>
    cases h
    exact ⟨_, _, fun c => by rw [exec_ld, pcOffset9_setCond, loadFrom_setCond, loadFrom_eq]⟩
  | ldi d off9 =>
    cases h
    exact ⟨_, _, fun c => by
      rw [exec_ldi, pcOffset9_setCond, memRead_setCond_fst, memRead_setCond_snd, loadFrom_setCond, loadFrom_eq]⟩
  | ldr d base off6 =>
    cases h
    exact ⟨_, _, fun c => by rw [exec_ldr, baseOffset6_setCond, loadFrom_setCond, loadFrom_eq]⟩
  | br | jmp | jsr | jsrr | st | sti | str | trap | rti | res => cases h

/-- An instruction that sets no flags, BR apart, hands COND through: it answers one state, with the COND it was given. -/
theorem exec_of_flagDest_none {i : Instr} (h : flagDest i = none) (hbr : isBr i = false) (s : State) :
    ∃ t : State, ∀ c, exec i (setCond c s) = .next (setCond c t) := by
  cases i with
  | jmp base => exact ⟨setPc (getReg base s) s, fun _ => exec_jmp ..⟩
  | jsr off11 => exact ⟨setPc (pcOffset11 off11 s) (link s), fun _ => exec_jsr ..⟩
  | jsrr base => exact ⟨setPc (getReg base (link s)) (link s), fun _ => exec_jsrr ..⟩
  | st sr off9 => exact ⟨poke (pcOffset9 off9 s) (getReg sr s) s, fun _ => exec_st ..⟩
  | sti sr off9 =>
    exact ⟨_, fun c => by
      rw [exec_sti, pcOffset9_setCond, memRead_setCond_fst, memRead_setCond_snd, getReg_setCond, poke_setCond]⟩
  | str sr base off6 => exact ⟨poke (baseOffset6 base off6 s) (getReg sr s) s, fun _ => exec_str ..⟩
  | trap v =>
    cases hw : trapWired v s with
    | true =>
      exact ⟨emitTrapEvent v (setPc (peek (zext8 v) s) (link s)), fun c => exec_trap_wired (s := setCond c s) hw⟩
    | false => exact ⟨{ s with status := .faulted (.trapUnwired v) }, fun c => exec_trap_unwired (s := setCond c s) hw⟩
  | rti ir => exact ⟨{ s with status := .faulted (.rti ir) }, fun _ => exec_rti ..⟩
  | res ir => exact ⟨{ s with status := .faulted (.res ir) }, fun _ => exec_res ..⟩
  | br => cases hbr
  | addReg | addImm | andReg | andImm | not | ld | ldi | ldr | lea => cases h

/-- BR moves the PC or does nothing. -/
theorem exec_br_cond {n z p : Bool} {off9 : BitVec 9} {s t : State} (h : exec (.br n z p off9) s = .next t) :
    t.cond = s.cond := by
  rw [exec_br] at h
  cases h
  split <;> rfl

theorem exec_flagsDescribe {i : Instr} {dr : Reg} {s t : State} (hd : flagDest i = some dr) (h : exec i s = .next t) :
    FlagsDescribe t.cond (getReg dr t) := by
  obtain ⟨v, s1, hv⟩ := exec_of_flagDest hd s
  have ht : t = writeFlagged dr v s1 := Host.Outcome.next.inj (h.symm.trans (hv s.cond))
  rw [ht, writeFlagged_cond, getReg_writeFlagged_same]
  exact flagsDescribe_classify v

theorem exec_keeps_cond {i : Instr} {s t : State} (hd : flagDest i = none) (h : exec i s = .next t) : t.cond = s.cond := by
  cases hbr : isBr i with
  | false =>
    obtain ⟨u, hu⟩ := exec_of_flagDest_none hd hbr s
    have ht : t = setCond s.cond u := Host.Outcome.next.inj (h.symm.trans (hu s.cond))
    rw [ht, setCond_cond]
  | true =>
    cases i with
    | br n z p off9 => exact exec_br_cond h
    | _ => cases hbr

/-- No instruction but BR reads COND. -/
theorem exec_setCond {i : Instr} {s t : State} (hbr : isBr i = false) (h : exec i s = .next t) (c : Cond) :
    exec i (setCond c s) = .next (if flagDest i = none then setCond c t else t) := by
  cases hd : flagDest i with
  | none =>
    obtain ⟨u, hu⟩ := exec_of_flagDest_none hd hbr s
    have ht : t = setCond s.cond u := Host.Outcome.next.inj (h.symm.trans (hu s.cond))
    rw [if_pos rfl, hu c, ht]
    rfl
  | some dr =>
    obtain ⟨v, s1, hv⟩ := exec_of_flagDest hd s
    have hs : exec i (setCond c s) = exec i s := (hv c).trans (hv s.cond).symm
    rw [if_neg nofun, hs, h]

/-- Settles O37: the writers by the flagged write they end in, the others because they hand COND through. -/
theorem flagWritersAndReader : Obligations.FlagWritersAndReader :=
  ⟨fun _ _ _ h => ⟨fun _ hd => exec_flagsDescribe hd h, fun hd => exec_keeps_cond hd h⟩,
    fun _ _ _ c hbr h => exec_setCond hbr h c⟩

end Sys2Proof.Machine

end

/-! ## Proofs: memory (20_memory.md) -/

section

namespace Sys2Proof.Machine

open Sys2Proof.Spec

/-- A poke has the effect and the frame of a store: the two reads come from the memory laws, the rest is untouched. -/
theorem stores_poke (a v : Word) {s : State} (h : s.mem.wf = true) : Stores a v s (poke a v s) := by
  have hsame : peek a (poke a v s) = v := peek_poke_same h
  have hother : ∀ b, b ≠ a → peek b (poke a v s) = peek b s := fun _ hb => peek_poke_ne h hb
  have hregs : SameRegs s (poke a v s) := getReg_congr (poke_regs a v s)
  have hrest : SameRest s (poke a v s) := ⟨rfl, rfl, rfl, rfl, rfl⟩
  exact ⟨hsame, hother, hregs, poke_cond a v s, poke_pc a v s, hrest⟩

/-- Settles O12: `MemWrite` is a poke at every address. -/
theorem memWriteStoresAndNothingElse : Obligations.MemWriteStoresAndNothingElse := by
  intro a v s h
  rw [memWrite_eq]
  exact stores_poke a v h

/-- Settles O10: the two cases of the address are the two laws of `MemRead`. -/
theorem memReadInterceptsOnlyKbsr : Obligations.MemReadInterceptsOnlyKbsr := by
  intro a s
  constructor
  · exact memRead_of_ne s
  · rintro rfl
    exact memRead_kbsr s

end Sys2Proof.Machine

end

/-! ## Proofs: the encoding (30_encoding.md) -/

section

namespace Sys2Proof.Machine

open Sys2Proof.Spec

/-- The eight rows of R54: the register a field names has the field's binary value as its number. -/
@[simp] theorem regNumber_ofBits : ∀ b : BitVec 3, regNumber (Reg.ofBits b) = b.toNat := by decide

/-- R54 at every position: a register field is the three bits of the word from `lo` upwards. -/
theorem regNumber_regAt (ir : Word) (lo : Nat) : regNumber (regAt ir lo) = (ir.toNat >>> lo) % 8 := by
  rw [regAt, regNumber_ofBits, BitVec.extractLsb'_toNat]

/-- Settles O5: the three field positions are instances of the general one. -/
theorem registerFieldsNameRegisters : Obligations.RegisterFieldsNameRegisters :=
  fun ir => ⟨regNumber_regAt ir 9, regNumber_regAt ir 6, regNumber_regAt ir 0⟩

end Sys2Proof.Machine

end

/-! ## Proofs: the helpers (40_fetch_dispatch.md) -/

section

namespace Sys2Proof.Machine

/-- R75's sign test as a number: a field is negative from half its range upwards. -/
theorem isNegative_iff_le_toNat {n : Nat} (v : BitVec n) : isNegative v = true ↔ 2 ^ (n - 1) ≤ v.toNat := by
  rw [isNegative_eq_msb, BitVec.msb_eq_decide, decide_eq_true_iff]

/-- R75's value of `sext_N(v)`: the field's own below half its range, else with bits N to 15 added. -/
theorem toNat_sext {n : Nat} (hn : n ≤ 16) (v : BitVec n) :
    (sext v).toNat = if v.toNat < 2 ^ (n - 1) then v.toNat else v.toNat + 65536 - 2 ^ n := by
  rw [sext_eq_signExtend, BitVec.toNat_signExtend, BitVec.toNat_setWidth_of_le hn, ← isNegative_eq_msb]
  have hfill : 2 ^ n ≤ 65536 := Nat.pow_le_pow_right (n := 2) (by decide) hn
  by_cases hneg : isNegative v = true
  · have hhalf := (isNegative_iff_le_toNat v).mp hneg
    rw [if_pos hneg, if_neg (Nat.not_lt.mpr hhalf), ← Nat.add_sub_assoc hfill]
  · have hhalf := Nat.not_le.mp (mt (isNegative_iff_le_toNat v).mpr hneg)
    rw [if_neg hneg, if_pos hhalf, Nat.add_zero]

/-- Sign extension only fills bits N to 15: masking its result to N bits gives the field back. -/
theorem setWidth_sext {n : Nat} (hn : n ≤ 16) (v : BitVec n) : (sext v).setWidth n = v := by
  apply BitVec.eq_of_getLsbD_eq
  intro i hi
  have hi16 : i < 16 := by omega
  rw [sext_eq_signExtend, BitVec.getLsbD_setWidth, BitVec.getLsbD_signExtend]
  simp [hi, hi16]

/-- Settles O7: the sign test is the top bit (R75), the value is `toNat_sext`, and extending again is idempotent because
the masked result is the field itself. -/
theorem signExtensionValue : Obligations.SignExtensionValue := by
  intro n v _ hn
  refine ⟨isNegative_iff_le_toNat v, ?_, toNat_sext hn v, ?_⟩
  · rw [isNegative_eq_msb, BitVec.msb_eq_getLsbD_last]
  · rw [setWidth_sext hn]

end Sys2Proof.Machine

end

/-! ## Proofs: ADD, AND and NOT (41_alu.md) -/

section

namespace Sys2Proof.Machine

open Sys2Proof.Spec

/-! ### What a row's mask says of a word's bits (R52, R55), and the decoder on the rows of this family -/

/-- A masked word shows the word's own bit wherever the mask is set. -/
theorem getLsbD_of_masked {ir mask pattern : Word} (h : ir &&& mask = pattern) {k : Nat} (hk : mask.getLsbD k = true) :
    ir.getLsbD k = pattern.getLsbD k := by
  rw [← h, BitVec.getLsbD_and, hk, Bool.and_true]

/-- The mask 0xF000 fixes the four opcode bits. -/
theorem opcode_bits_of_masked {ir pattern : Word} (h : ir &&& 0xF000#16 = pattern) :
    ir.getLsbD 15 = pattern.getLsbD 15 ∧ ir.getLsbD 14 = pattern.getLsbD 14 ∧
      ir.getLsbD 13 = pattern.getLsbD 13 ∧ ir.getLsbD 12 = pattern.getLsbD 12 :=
  ⟨getLsbD_of_masked h rfl, getLsbD_of_masked h rfl, getLsbD_of_masked h rfl, getLsbD_of_masked h rfl⟩

/-- The mask 0xF020 fixes the four opcode bits and the mode bit of ADD and AND. -/
theorem opcode_mode5_bits_of_masked {ir pattern : Word} (h : ir &&& 0xF020#16 = pattern) :
    ir.getLsbD 15 = pattern.getLsbD 15 ∧ ir.getLsbD 14 = pattern.getLsbD 14 ∧
      ir.getLsbD 13 = pattern.getLsbD 13 ∧ ir.getLsbD 12 = pattern.getLsbD 12 ∧ ir.getLsbD 5 = pattern.getLsbD 5 :=
  ⟨getLsbD_of_masked h rfl, getLsbD_of_masked h rfl, getLsbD_of_masked h rfl, getLsbD_of_masked h rfl,
    getLsbD_of_masked h rfl⟩

theorem decodeWord_of_addReg_row {ir : Word} (h : ir &&& 0xF020#16 = 0x1000#16) :
    decodeWord ir = .addReg (regAt ir 9) (regAt ir 6) (regAt ir 0) := by
  obtain ⟨h15, h14, h13, h12, h5⟩ := opcode_mode5_bits_of_masked h
  rw [decodeWord, h15, h14, h13, h12, h5]
  rfl

theorem decodeWord_of_addImm_row {ir : Word} (h : ir &&& 0xF020#16 = 0x1020#16) :
    decodeWord ir = .addImm (regAt ir 9) (regAt ir 6) (ir.extractLsb' 0 5) := by
  obtain ⟨h15, h14, h13, h12, h5⟩ := opcode_mode5_bits_of_masked h
  rw [decodeWord, h15, h14, h13, h12, h5]
  rfl

theorem decodeWord_of_andReg_row {ir : Word} (h : ir &&& 0xF020#16 = 0x5000#16) :
    decodeWord ir = .andReg (regAt ir 9) (regAt ir 6) (regAt ir 0) := by
  obtain ⟨h15, h14, h13, h12, h5⟩ := opcode_mode5_bits_of_masked h
  rw [decodeWord, h15, h14, h13, h12, h5]
  rfl

theorem decodeWord_of_andImm_row {ir : Word} (h : ir &&& 0xF020#16 = 0x5020#16) :
    decodeWord ir = .andImm (regAt ir 9) (regAt ir 6) (ir.extractLsb' 0 5) := by
  obtain ⟨h15, h14, h13, h12, h5⟩ := opcode_mode5_bits_of_masked h
  rw [decodeWord, h15, h14, h13, h12, h5]
  rfl

theorem decodeWord_of_not_row {ir : Word} (h : ir &&& 0xF000#16 = 0x9000#16) :
    decodeWord ir = .not (regAt ir 9) (regAt ir 6) := by
  obtain ⟨h15, h14, h13, h12⟩ := opcode_bits_of_masked h
  rw [decodeWord, h15, h14, h13, h12]
  rfl

/-! ### The flagged write (R18, R77) and the sign-extended operand (R75) -/

/-- A flag-setting register write has exactly the effect and the frame every flag writer is given. -/
theorem writesFlagged_writeFlagged (dr : Reg) (v : Word) (s : State) : WritesFlagged dr v s (writeFlagged dr v s) := by
  have hdr : getReg dr (writeFlagged dr v s) = v := getReg_writeFlagged_same dr v s
  have hcond : FlagsDescribe (writeFlagged dr v s).cond v := by
    rw [writeFlagged_cond]
    exact flagsDescribe_classify v
  have hregs : SameRegsBut dr s (writeFlagged dr v s) := fun _ hr => getReg_writeFlagged_ne v s hr
  have hmem : SameMem s (writeFlagged dr v s) := peek_congr (writeFlagged_mem dr v s)
  exact ⟨hdr, hcond, hregs, writeFlagged_pc dr v s, hmem, rfl, rfl, rfl, rfl, rfl⟩

/-- Sign extension keeps the signed number of a field, so adding the extended field adds that number modulo 2^16. -/
theorem offsetFrom_add_sext {n : Nat} (hn : n ≤ 16) (base : Word) (off : BitVec n) :
    OffsetFrom base off (base + sext off) := by
  have hoff : off.toInt = ((sext off).toNat : Int).bmod 65536 := by
    rw [← BitVec.toInt_signExtend_of_le (x := off) hn, ← sext_eq_signExtend, BitVec.toInt_eq_toNat_bmod]
  have hsum : ((base + sext off).toNat : Int) = ((base.toNat : Int) + (sext off).toNat) % 65536 := by
    rw [BitVec.toNat_add]
    rfl
  calc ((base + sext off).toNat : Int)
      = ((base.toNat : Int) + (sext off).toNat) % 65536 := hsum
    _ = ((base.toNat : Int) + off.toInt) % 65536 := by
        rw [hoff]
        exact (Int.emod_add_cancel_left.mpr Int.bmod_emod).symm

/-- R75 bit by bit: the field's own bits, and its top bit from there upwards. -/
theorem getLsbD_sext {n : Nat} (v : BitVec n) {k : Nat} (hk : k < 16) :
    (sext v).getLsbD k = v.getLsbD (min k (n - 1)) := by
  rw [sext_eq_signExtend, BitVec.getLsbD_signExtend, decide_eq_true hk, Bool.true_and]
  split
  next hkn => rw [Nat.min_eq_left (by omega)]
  next hkn => rw [BitVec.msb_eq_getLsbD_last, Nat.min_eq_right (by omega)]

/-! ### The five instructions -/

/-- Settles O13: the library's addition of words is the sum modulo 2^16. -/
theorem addRegisterForm : Obligations.AddRegisterForm :=
  ⟨fun _ h => decodeWord_of_addReg_row h, fun dr sr1 sr2 s =>
    ⟨_, _, exec_addReg dr sr1 sr2 s, BitVec.toNat_add .., writesFlagged_writeFlagged ..⟩⟩

/-- Settles O14: the immediate is an offset from SR1. -/
theorem addImmediateForm : Obligations.AddImmediateForm :=
  ⟨fun _ h => decodeWord_of_addImm_row h, fun dr sr1 imm5 s =>
    ⟨_, _, exec_addImm dr sr1 imm5 s, offsetFrom_add_sext (by decide) .., writesFlagged_writeFlagged ..⟩⟩

/-- Settles O15. -/
theorem andRegisterForm : Obligations.AndRegisterForm :=
  ⟨fun _ h => decodeWord_of_andReg_row h, fun dr sr1 sr2 s =>
    ⟨_, _, exec_andReg dr sr1 sr2 s, fun _ _ => BitVec.getLsbD_and .., writesFlagged_writeFlagged ..⟩⟩

/-- Settles O16: bit `k` of the extended immediate is bit `min k 4` of the field. -/
theorem andImmediateForm : Obligations.AndImmediateForm := by
  refine ⟨fun _ h => decodeWord_of_andImm_row h, fun dr sr1 imm5 s =>
    ⟨_, _, exec_andImm dr sr1 imm5 s, ?_, writesFlagged_writeFlagged ..⟩⟩
  intro k hk
  rw [BitVec.getLsbD_and, getLsbD_sext imm5 hk]

/-- Settles O17: the complement of a word is its distance from 0xFFFF. -/
theorem notComplements : Obligations.NotComplements :=
  ⟨fun _ h => decodeWord_of_not_row h, fun dr sr s =>
    ⟨_, _, exec_not dr sr s, BitVec.toNat_not, writesFlagged_writeFlagged ..⟩⟩

end Sys2Proof.Machine

end

/-! ## Proofs: BR, JMP and JSR (42_control.md) -/

section

namespace Sys2Proof.Machine

open Sys2Proof.Spec

/-! ### The decoder on the rows of this family (R52, R55) -/

/-- The mask 0xF800 fixes the four opcode bits and the mode bit of JSR and JSRR. -/
theorem opcode_mode11_bits_of_masked {ir pattern : Word} (h : ir &&& 0xF800#16 = pattern) :
    ir.getLsbD 15 = pattern.getLsbD 15 ∧ ir.getLsbD 14 = pattern.getLsbD 14 ∧
      ir.getLsbD 13 = pattern.getLsbD 13 ∧ ir.getLsbD 12 = pattern.getLsbD 12 ∧ ir.getLsbD 11 = pattern.getLsbD 11 :=
  ⟨getLsbD_of_masked h rfl, getLsbD_of_masked h rfl, getLsbD_of_masked h rfl, getLsbD_of_masked h rfl,
    getLsbD_of_masked h rfl⟩

theorem decodeWord_of_br_row {ir : Word} (h : ir &&& 0xF000#16 = 0x0000#16) :
    decodeWord ir = .br (ir.getLsbD 11) (ir.getLsbD 10) (ir.getLsbD 9) (ir.extractLsb' 0 9) := by
  obtain ⟨h15, h14, h13, h12⟩ := opcode_bits_of_masked h
  rw [decodeWord, h15, h14, h13, h12]
  rfl

theorem decodeWord_of_jmp_row {ir : Word} (h : ir &&& 0xF000#16 = 0xC000#16) : decodeWord ir = .jmp (regAt ir 6) := by
  obtain ⟨h15, h14, h13, h12⟩ := opcode_bits_of_masked h
  rw [decodeWord, h15, h14, h13, h12]
  rfl

theorem decodeWord_of_jsr_row {ir : Word} (h : ir &&& 0xF800#16 = 0x4800#16) :
    decodeWord ir = .jsr (ir.extractLsb' 0 11) := by
  obtain ⟨h15, h14, h13, h12, h11⟩ := opcode_mode11_bits_of_masked h
  rw [decodeWord, h15, h14, h13, h12, h11]
  rfl

/-! ### The frame of a control transfer: it may move the PC and write the link -/

theorem controlFrame_refl (s : State) : ControlFrame s s := ⟨rfl, fun _ => rfl, rfl, rfl, rfl, rfl, rfl⟩

theorem controlFrame_setPc (target : Word) (s : State) : ControlFrame s (setPc target s) :=
  ⟨setPc_cond target s, peek_congr (setPc_mem target s), rfl, rfl, rfl, rfl, rfl⟩

theorem controlFrame_setPc_link (target : Word) (s : State) : ControlFrame s (setPc target (link s)) :=
  ⟨rfl, peek_congr rfl, rfl, rfl, rfl, rfl, rfl⟩

theorem sameRegs_setPc (target : Word) (s : State) : SameRegs s (setPc target s) := getReg_congr (setPc_regs target s)

/-- R12: after the link write and a jump, R7 holds the PC that stood before both. -/
theorem getReg_r7_setPc_link (target : Word) (s : State) : getReg .r7 (setPc target (link s)) = s.pc :=
  getReg_setReg_same .r7 s.pc s

theorem sameRegsBut_r7_setPc_link (target : Word) (s : State) : SameRegsBut .r7 s (setPc target (link s)) :=
  fun _ hr => getReg_setReg_ne s.pc s hr

/-! ### The test of BR (R90) -/

theorem toNat_condField : ∀ n z p : Bool, (condField n z p).toNat = 4 * n.toNat + 2 * z.toNat + p.toNat := by decide

/-- The test by numbers: the meaning's own, read as natural numbers. -/
theorem branchTaken_iff_field (n z p : Bool) (c : Cond) :
    branchTaken n z p c = true ↔ ((4 * n.toNat + 2 * z.toNat + p.toNat) &&& (condBits c).toNat) ≠ 0 := by
  rw [branchTaken, decide_eq_true_iff, ← BitVec.toNat_ne_iff_ne, BitVec.toNat_and, toNat_condField, BitVec.toNat_zero]

/-- The test by names: the word of each flag selects its own bit of the field, and the word of no flag selects none. -/
theorem branchTaken_iff_flag (n z p : Bool) (c : Cond) :
    branchTaken n z p c = true ↔ n = true ∧ c = .neg ∨ z = true ∧ c = .zro ∨ p = true ∧ c = .pos := by
  revert n z p
  cases c <;> decide

theorem exec_br_taken {n z p : Bool} {s : State} (off9 : BitVec 9) (h : branchTaken n z p s.cond = true) :
    exec (.br n z p off9) s = .next (setPc (pcOffset9 off9 s) s) := by
  rw [exec_br, if_pos h]

theorem exec_br_not_taken {n z p : Bool} {s : State} (off9 : BitVec 9) (h : ¬ branchTaken n z p s.cond = true) :
    exec (.br n z p off9) s = .next s := by
  rw [exec_br, if_neg h]

/-! ### The three instructions -/

/-- Settles O18: both forms of the condition are the meaning's test, and the two cases of the test give the target. -/
theorem branchOnCondition : Obligations.BranchOnCondition := by
  refine ⟨fun _ h => decodeWord_of_br_row h, fun n z p off9 s => ?_⟩
  have hflag := branchTaken_iff_flag n z p s.cond
  have hforms := hflag.symm.trans (branchTaken_iff_field n z p s.cond)
  by_cases h : branchTaken n z p s.cond = true
  · refine ⟨_, exec_br_taken off9 h, hforms, ?_, sameRegs_setPc _ s, controlFrame_setPc _ s⟩
    rw [if_pos (hflag.mp h)]
    exact offsetFrom_add_sext (by decide) s.pc off9
  · refine ⟨_, exec_br_not_taken off9 h, hforms, ?_, fun _ => rfl, controlFrame_refl s⟩
    rw [if_neg (mt hflag.mpr h)]

/-- Settles O19: the target is the register's whole word. -/
theorem jumpToRegister : Obligations.JumpToRegister :=
  ⟨fun _ h => decodeWord_of_jmp_row h, decodeWord_of_jmp_row (by decide), fun base s =>
    ⟨_, exec_jmp base s, setPc_pc .., sameRegs_setPc _ s, controlFrame_setPc _ s⟩⟩

/-- Settles O20: the link and the target are taken from the PC of one state. -/
theorem jumpToSubroutine : Obligations.JumpToSubroutine :=
  ⟨fun _ h => decodeWord_of_jsr_row h, fun off11 s =>
    ⟨_, exec_jsr off11 s, getReg_r7_setPc_link _ s, offsetFrom_add_sext (by decide) s.pc off11,
      sameRegsBut_r7_setPc_link _ s, controlFrame_setPc_link _ s⟩⟩

end Sys2Proof.Machine

end

/-! ## Proofs: LD, LDI, LDR and LEA (43_load.md) -/

section

namespace Sys2Proof.Machine

open Sys2Proof.Spec

/-! ### The decoder on the rows of this family (R52) -/

theorem decodeWord_of_ld_row {ir : Word} (h : ir &&& 0xF000#16 = 0x2000#16) :
    decodeWord ir = .ld (regAt ir 9) (ir.extractLsb' 0 9) := by
  obtain ⟨h15, h14, h13, h12⟩ := opcode_bits_of_masked h
  rw [decodeWord, h15, h14, h13, h12]
  rfl

theorem decodeWord_of_ldi_row {ir : Word} (h : ir &&& 0xF000#16 = 0xA000#16) :
    decodeWord ir = .ldi (regAt ir 9) (ir.extractLsb' 0 9) := by
  obtain ⟨h15, h14, h13, h12⟩ := opcode_bits_of_masked h
  rw [decodeWord, h15, h14, h13, h12]
  rfl

theorem decodeWord_of_ldr_row {ir : Word} (h : ir &&& 0xF000#16 = 0x6000#16) :
    decodeWord ir = .ldr (regAt ir 9) (regAt ir 6) (ir.extractLsb' 0 6) := by
  obtain ⟨h15, h14, h13, h12⟩ := opcode_bits_of_masked h
  rw [decodeWord, h15, h14, h13, h12]
  rfl

theorem decodeWord_of_lea_row {ir : Word} (h : ir &&& 0xF000#16 = 0xE000#16) :
    decodeWord ir = .lea (regAt ir 9) (ir.extractLsb' 0 9) := by
  obtain ⟨h15, h14, h13, h12⟩ := opcode_bits_of_masked h
  rw [decodeWord, h15, h14, h13, h12]
  rfl

/-! ### The cells after a keyboard update (R34), and what a `MemRead` gives and leaves (R33) -/

theorem kbsr_ne_kbdr : kbsr ≠ kbdr := by decide

/-- The keyboard update writes no cell but KBSR and KBDR. -/
theorem peek_keyboardUpdate_ne {a : Word} {s : State} (h : s.mem.wf = true) (hsr : a ≠ kbsr) (hdr : a ≠ kbdr) :
    peek a (keyboardUpdate s) = peek a s := by
  have hpoll : (afterPoll s).mem.wf = true := h
  obtain ⟨-, e⟩ | ⟨-, e⟩ := keyboardUpdate_cases s <;> rw [e]
  · exact peek_poke_ne hpoll hsr
  · rw [peek_poke_ne (poke_wf hpoll) hdr]
    exact peek_poke_ne hpoll hsr

/-- KBSR after the keyboard update: cleared without a key, else the ready word of R34, which the write of KBDR leaves. -/
theorem peek_kbsr_keyboardUpdate {s : State} (h : s.mem.wf = true) :
    peek kbsr (keyboardUpdate s) =
      if pollAnswer s = 0#16 then 0#16 else readyWord s.params.kbsrReadyWrite (peek kbsr s) := by
  have hpoll : (afterPoll s).mem.wf = true := h
  obtain ⟨hk, e⟩ | ⟨hk, e⟩ := keyboardUpdate_cases s <;> rw [e]
  · rw [if_pos hk, peek_poke_same hpoll]
  · rw [if_neg hk, peek_poke_ne (poke_wf hpoll) kbsr_ne_kbdr, peek_poke_same hpoll]

/-- The cells a `MemRead` leaves alone, whatever its address. -/
theorem peek_memRead_snd_ne {a b : Word} {s : State} (h : s.mem.wf = true) (hsr : b ≠ kbsr) (hdr : b ≠ kbdr) :
    peek b (memRead a s).2 = peek b s := by
  by_cases ha : a = kbsr
  · rw [ha, memRead_kbsr]
    exact peek_keyboardUpdate_ne h hsr hdr
  · rw [memRead_of_ne s ha]

/-- Every `MemRead` is a read as the statements describe it: the two laws of the address, then the frame. -/
theorem reads_memRead (a : Word) {s : State} (h : s.mem.wf = true) : Reads a s (memRead a s).1 (memRead a s).2 := by
  have hframe := memRead_frame a s
  refine ⟨rfl, fun ha => ?_, fun ha => ?_, fun _ => peek_memRead_snd_ne h, getReg_congr hframe.regs, hframe.pc,
    hframe.cond, hframe.status, hframe.trapEvent, hframe.params⟩
  · rw [memRead_of_ne s ha]
    exact ⟨rfl, rfl⟩
  · obtain rfl : a = kbsr := ha
    rw [memRead_kbsr]
    refine ⟨keyboardUpdate_polls s, keyboardUpdate_keys s, rfl, fun hassign => ?_⟩
    rw [peek_kbsr_keyboardUpdate h, hassign]
    rfl

/-- A load is a read of its address and the flagged write of the word read. -/
theorem writesFlagged_loadFrom (dr : Reg) (ea : Word) (s : State) :
    WritesFlagged dr (memRead ea s).1 (memRead ea s).2 (loadFrom dr ea s) :=
  writesFlagged_writeFlagged ..

/-! ### The four instructions -/

/-- Settles O22: one read, at the PC-relative address. -/
theorem loadPcRelative : Obligations.LoadPcRelative :=
  ⟨fun _ h => decodeWord_of_ld_row h, fun dr off9 s hwf =>
    ⟨_, _, _, exec_ld dr off9 s, offsetFrom_add_sext (by decide) .., reads_memRead _ hwf, writesFlagged_loadFrom ..⟩⟩

/-- Settles O23: the pointer read keeps memory canonical, so the data read is a read too. -/
theorem loadIndirect : Obligations.LoadIndirect :=
  ⟨fun _ h => decodeWord_of_ldi_row h, fun dr off9 s hwf =>
    ⟨_, _, _, _, _, exec_ldi dr off9 s, offsetFrom_add_sext (by decide) .., reads_memRead _ hwf,
      reads_memRead _ (memRead_wf hwf), writesFlagged_loadFrom ..⟩⟩

/-- Settles O24: one read, at the offset from the base register of the state before. -/
theorem loadBaseOffset : Obligations.LoadBaseOffset :=
  ⟨fun _ h => decodeWord_of_ldr_row h, fun dr base off6 s hwf =>
    ⟨_, _, _, exec_ldr dr base off6 s, offsetFrom_add_sext (by decide) .., reads_memRead _ hwf,
      writesFlagged_loadFrom ..⟩⟩

/-- Settles O25: the flagged write of the address in the state itself, with no read before it. -/
theorem loadEffectiveAddress : Obligations.LoadEffectiveAddress :=
  ⟨fun _ h => decodeWord_of_lea_row h, fun dr off9 s =>
    ⟨_, _, exec_lea dr off9 s, offsetFrom_add_sext (by decide) .., writesFlagged_writeFlagged ..⟩⟩

end Sys2Proof.Machine

end

/-! ## Proofs: ST, STI and STR (44_store.md) -/

section

namespace Sys2Proof.Machine

open Sys2Proof.Spec

/-! ### The decoder on the rows of this family (R52) -/

theorem decodeWord_of_st_row {ir : Word} (h : ir &&& 0xF000#16 = 0x3000#16) :
    decodeWord ir = .st (regAt ir 9) (ir.extractLsb' 0 9) := by
  obtain ⟨h15, h14, h13, h12⟩ := opcode_bits_of_masked h
  rw [decodeWord, h15, h14, h13, h12]
  rfl

theorem decodeWord_of_sti_row {ir : Word} (h : ir &&& 0xF000#16 = 0xB000#16) :
    decodeWord ir = .sti (regAt ir 9) (ir.extractLsb' 0 9) := by
  obtain ⟨h15, h14, h13, h12⟩ := opcode_bits_of_masked h
  rw [decodeWord, h15, h14, h13, h12]
  rfl

theorem decodeWord_of_str_row {ir : Word} (h : ir &&& 0xF000#16 = 0x7000#16) :
    decodeWord ir = .str (regAt ir 9) (regAt ir 6) (ir.extractLsb' 0 6) := by
  obtain ⟨h15, h14, h13, h12⟩ := opcode_bits_of_masked h
  rw [decodeWord, h15, h14, h13, h12]
  rfl

/-! ### The three instructions -/

/-- Settles O26: one store, at the PC-relative address. -/
theorem storePcRelative : Obligations.StorePcRelative :=
  ⟨fun _ h => decodeWord_of_st_row h, fun sr off9 s hwf =>
    ⟨_, exec_st sr off9 s, offsetFrom_add_sext (by decide) .., stores_poke _ _ hwf⟩⟩

/-- Settles O27: the pointer read keeps memory canonical, so the poke in the state it leaves is a store too; the word
stored is the register's of the state before, which the read does not change. -/
theorem storeIndirect : Obligations.StoreIndirect :=
  ⟨fun _ h => decodeWord_of_sti_row h, fun sr off9 s hwf =>
    ⟨_, _, _, exec_sti sr off9 s, offsetFrom_add_sext (by decide) .., reads_memRead _ hwf,
      stores_poke _ _ (memRead_wf hwf)⟩⟩

/-- Settles O28: one store, at the offset from the base register. -/
theorem storeBaseOffset : Obligations.StoreBaseOffset :=
  ⟨fun _ h => decodeWord_of_str_row h, fun sr base off6 s hwf =>
    ⟨_, exec_str sr base off6 s, offsetFrom_add_sext (by decide) .., stores_poke _ _ hwf⟩⟩

end Sys2Proof.Machine

end

/-! ## Proofs: the opcode table, the decoder and the encoder (30_encoding.md) -/

section

namespace Sys2Proof.Machine

open Sys2Proof.Spec

/-! ### The decoder on the rows left (R52, R55) -/

theorem decodeWord_of_jsrr_row {ir : Word} (h : ir &&& 0xF800#16 = 0x4000#16) : decodeWord ir = .jsrr (regAt ir 6) := by
  obtain ⟨h15, h14, h13, h12, h11⟩ := opcode_mode11_bits_of_masked h
  rw [decodeWord, h15, h14, h13, h12, h11]
  rfl

theorem decodeWord_of_trap_row {ir : Word} (h : ir &&& 0xF000#16 = 0xF000#16) :
    decodeWord ir = .trap (ir.extractLsb' 0 8) := by
  obtain ⟨h15, h14, h13, h12⟩ := opcode_bits_of_masked h
  rw [decodeWord, h15, h14, h13, h12]
  rfl

theorem decodeWord_of_rti_row {ir : Word} (h : ir &&& 0xF000#16 = 0x8000#16) : decodeWord ir = .rti ir := by
  obtain ⟨h15, h14, h13, h12⟩ := opcode_bits_of_masked h
  rw [decodeWord, h15, h14, h13, h12]
  rfl

theorem decodeWord_of_res_row {ir : Word} (h : ir &&& 0xF000#16 = 0xD000#16) : decodeWord ir = .res ir := by
  obtain ⟨h15, h14, h13, h12⟩ := opcode_bits_of_masked h
  rw [decodeWord, h15, h14, h13, h12]
  rfl

/-! ### The rows by name -/

/-- The row of `opcodeTable` that bears a name. -/
def tableRow : RowName → Row
  | .addReg => ⟨.addReg, 0xF020#16, 0x1000#16, 0xFFE7#16⟩
  | .addImm => ⟨.addImm, 0xF020#16, 0x1020#16, 0xFFFF#16⟩
  | .andReg => ⟨.andReg, 0xF020#16, 0x5000#16, 0xFFE7#16⟩
  | .andImm => ⟨.andImm, 0xF020#16, 0x5020#16, 0xFFFF#16⟩
  | .not => ⟨.not, 0xF000#16, 0x9000#16, 0xFFC0#16⟩
  | .br => ⟨.br, 0xF000#16, 0x0000#16, 0xFFFF#16⟩
  | .jmp => ⟨.jmp, 0xF000#16, 0xC000#16, 0xF1C0#16⟩
  | .jsr => ⟨.jsr, 0xF800#16, 0x4800#16, 0xFFFF#16⟩
  | .jsrr => ⟨.jsrr, 0xF800#16, 0x4000#16, 0xF9C0#16⟩
  | .ld => ⟨.ld, 0xF000#16, 0x2000#16, 0xFFFF#16⟩
  | .ldi => ⟨.ldi, 0xF000#16, 0xA000#16, 0xFFFF#16⟩
  | .ldr => ⟨.ldr, 0xF000#16, 0x6000#16, 0xFFFF#16⟩
  | .lea => ⟨.lea, 0xF000#16, 0xE000#16, 0xFFFF#16⟩
  | .st => ⟨.st, 0xF000#16, 0x3000#16, 0xFFFF#16⟩
  | .sti => ⟨.sti, 0xF000#16, 0xB000#16, 0xFFFF#16⟩
  | .str => ⟨.str, 0xF000#16, 0x7000#16, 0xFFFF#16⟩
  | .trap => ⟨.trap, 0xF000#16, 0xF000#16, 0xF0FF#16⟩
  | .rti => ⟨.rti, 0xF000#16, 0x8000#16, 0xF000#16⟩
  | .res => ⟨.res, 0xF000#16, 0xD000#16, 0xF000#16⟩

theorem eq_tableRow : ∀ r ∈ opcodeTable, r = tableRow r.name := by decide

theorem tableRow_mem (n : RowName) : tableRow n ∈ opcodeTable := by cases n <;> decide

@[simp] theorem tableRow_name (n : RowName) : (tableRow n).name = n := by cases n <;> rfl

theorem row_holds_iff (r : Row) (ir : Word) : r.holds ir = true ↔ ir &&& r.mask = r.pattern := decide_eq_true_iff

/-- The instruction a word stands for as a word of the row `n`: the operand fields of R51 and R53. -/
def readRow (n : RowName) (ir : Word) : Instr :=
  match n with
  | .addReg => .addReg (regAt ir 9) (regAt ir 6) (regAt ir 0)
  | .addImm => .addImm (regAt ir 9) (regAt ir 6) (ir.extractLsb' 0 5)
  | .andReg => .andReg (regAt ir 9) (regAt ir 6) (regAt ir 0)
  | .andImm => .andImm (regAt ir 9) (regAt ir 6) (ir.extractLsb' 0 5)
  | .not => .not (regAt ir 9) (regAt ir 6)
  | .br => .br (ir.getLsbD 11) (ir.getLsbD 10) (ir.getLsbD 9) (ir.extractLsb' 0 9)
  | .jmp => .jmp (regAt ir 6)
  | .jsr => .jsr (ir.extractLsb' 0 11)
  | .jsrr => .jsrr (regAt ir 6)
  | .ld => .ld (regAt ir 9) (ir.extractLsb' 0 9)
  | .ldi => .ldi (regAt ir 9) (ir.extractLsb' 0 9)
  | .ldr => .ldr (regAt ir 9) (regAt ir 6) (ir.extractLsb' 0 6)
  | .lea => .lea (regAt ir 9) (ir.extractLsb' 0 9)
  | .st => .st (regAt ir 9) (ir.extractLsb' 0 9)
  | .sti => .sti (regAt ir 9) (ir.extractLsb' 0 9)
  | .str => .str (regAt ir 9) (regAt ir 6) (ir.extractLsb' 0 6)
  | .trap => .trap (ir.extractLsb' 0 8)
  | .rti => .rti ir
  | .res => .res ir

@[simp] theorem readRow_rowName (n : RowName) (ir : Word) : (readRow n ir).rowName = n := by cases n <;> rfl

/-- The decoder on every row of the table. -/
theorem decodeWord_of_row {n : RowName} {ir : Word} (h : (tableRow n).holds ir = true) : decodeWord ir = readRow n ir := by
  have hm := (row_holds_iff _ _).mp h
  cases n with
  | addReg => exact decodeWord_of_addReg_row hm
  | addImm => exact decodeWord_of_addImm_row hm
  | andReg => exact decodeWord_of_andReg_row hm
  | andImm => exact decodeWord_of_andImm_row hm
  | not => exact decodeWord_of_not_row hm
  | br => exact decodeWord_of_br_row hm
  | jmp => exact decodeWord_of_jmp_row hm
  | jsr => exact decodeWord_of_jsr_row hm
  | jsrr => exact decodeWord_of_jsrr_row hm
  | ld => exact decodeWord_of_ld_row hm
  | ldi => exact decodeWord_of_ldi_row hm
  | ldr => exact decodeWord_of_ldr_row hm
  | lea => exact decodeWord_of_lea_row hm
  | st => exact decodeWord_of_st_row hm
  | sti => exact decodeWord_of_sti_row hm
  | str => exact decodeWord_of_str_row hm
  | trap => exact decodeWord_of_trap_row hm
  | rti => exact decodeWord_of_rti_row hm
  | res => exact decodeWord_of_res_row hm

/-! ### Every word has one row (R57) -/

/-- The word of an opcode and the two mode bits: all that a row's mask looks at. -/
def rowKey (p : BitVec 4) (mode11 mode5 : Bool) : Word :=
  p ++ (BitVec.ofBool mode11 ++ (0#5 ++ (BitVec.ofBool mode5 ++ 0#5)))

theorem and_0xF820_eq_rowKey (ir : Word) :
    ir &&& 0xF820#16 = rowKey (ir.extractLsb' 12 4) (ir.getLsbD 11) (ir.getLsbD 5) := by
  apply BitVec.eq_of_getLsbD_eq
  intro k hk
  rw [rowKey, BitVec.getLsbD_and]
  repeat rw [BitVec.getLsbD_append]
  interval_cases k <;> simp

theorem mask_sub_0xF820 : ∀ r ∈ opcodeTable, 0xF820#16 &&& r.mask = r.mask := by decide

theorem holds_rowKey {r : Row} (hr : r ∈ opcodeTable) (ir : Word) :
    r.holds (rowKey (ir.extractLsb' 12 4) (ir.getLsbD 11) (ir.getLsbD 5)) = r.holds ir := by
  rw [← and_0xF820_eq_rowKey, Row.holds, Row.holds, BitVec.and_assoc, mask_sub_0xF820 r hr]

theorem exists_row_of_rowKey : ∀ (p : BitVec 4) (mode11 mode5 : Bool),
    ∃ r ∈ opcodeTable, r.holds (rowKey p mode11 mode5) = true := by decide

theorem exists_tableRow_holds (ir : Word) : ∃ n, (tableRow n).holds ir = true := by
  obtain ⟨r, hr, hkey⟩ := exists_row_of_rowKey (ir.extractLsb' 12 4) (ir.getLsbD 11) (ir.getLsbD 5)
  exact ⟨r.name, by rwa [← eq_tableRow r hr, ← holds_rowKey hr]⟩

/-- The row a word meets is the decoded instruction's own, so there is no second one. -/
theorem eq_tableRow_of_holds {r : Row} {ir : Word} (hr : r ∈ opcodeTable) (h : r.holds ir = true) :
    r = tableRow (decodeWord ir).rowName := by
  have hn := eq_tableRow r hr
  rw [hn] at h
  rw [decodeWord_of_row h, readRow_rowName]
  exact hn

/-- Every word meets the row of the instruction it decodes to. -/
theorem holds_decodeWord (ir : Word) : (tableRow (decodeWord ir).rowName).holds ir = true := by
  obtain ⟨n, hn⟩ := exists_tableRow_holds ir
  rwa [decodeWord_of_row hn, readRow_rowName]

/-- Every word is read by its own row. -/
theorem decodeWord_eq_readRow (ir : Word) : decodeWord ir = readRow (decodeWord ir).rowName ir :=
  decodeWord_of_row (holds_decodeWord ir)

end Sys2Proof.Machine

end

/-! ## Proofs: decoding an encoded instruction (30_encoding.md) -/

section

namespace Sys2Proof.Machine

open Sys2Proof.Spec Sys2Proof.Laws

/-! ### Fields of a word put together from fields -/

@[simp] theorem ofBits_toBits (r : Reg) : Reg.ofBits r.toBits = r := by cases r <;> rfl

theorem ofBits_injective : Function.Injective Reg.ofBits := by decide

/-- Reading a field between two others. -/
theorem extractLsb'_append_middle {a b c : Nat} (hi : BitVec a) (x : BitVec b) (lo : BitVec c) :
    (hi ++ (x ++ lo)).extractLsb' c b = x := by
  rw [BitVec.extractLsb'_append_eq_of_add_le (by omega), BitVec.extractLsb'_append_eq_of_le le_rfl, Nat.sub_self,
    BitVec.extractLsb'_eq_self]

theorem regAt_of_extract {ir : Word} {lo : Nat} {r : Reg} (h : ir.extractLsb' lo 3 = r.toBits) : regAt ir lo = r := by
  rw [regAt, h, ofBits_toBits]

/-- The register at bits 11:9. -/
theorem regAt_9_append (p : BitVec 4) (r : Reg) (x : BitVec 9) : regAt (p ++ (r.toBits ++ x)) 9 = r :=
  regAt_of_extract (extractLsb'_append_middle ..)

/-- The register at bits 8:6. -/
theorem regAt_6_append (p : BitVec 4) (d : BitVec 3) (r : Reg) (x : BitVec 6) :
    regAt (p ++ (d ++ (r.toBits ++ x))) 6 = r :=
  regAt_of_extract ((BitVec.extractLsb'_append_eq_of_add_le (by decide)).trans (extractLsb'_append_middle ..))

/-- The register at bits 2:0. -/
theorem regAt_0_append (p : BitVec 4) (d s : BitVec 3) (m : BitVec 1) (z : BitVec 2) (r : Reg) :
    regAt (p ++ (d ++ (s ++ (m ++ (z ++ r.toBits))))) 0 = r := by
  apply regAt_of_extract
  iterate 4 rw [BitVec.extractLsb'_append_eq_of_add_le (by decide)]
  exact BitVec.extractLsb'_append_eq_right

theorem extractLsb'_0_5_append (p : BitVec 4) (d s : BitVec 3) (m : BitVec 1) (x : BitVec 5) :
    (p ++ (d ++ (s ++ (m ++ x))) : Word).extractLsb' 0 5 = x := by
  iterate 3 rw [BitVec.extractLsb'_append_eq_of_add_le (by decide)]
  exact BitVec.extractLsb'_append_eq_right

theorem extractLsb'_0_6_append (p : BitVec 4) (d s : BitVec 3) (x : BitVec 6) :
    (p ++ (d ++ (s ++ x)) : Word).extractLsb' 0 6 = x := by
  iterate 2 rw [BitVec.extractLsb'_append_eq_of_add_le (by decide)]
  exact BitVec.extractLsb'_append_eq_right

theorem extractLsb'_0_8_append (p z : BitVec 4) (x : BitVec 8) : (p ++ (z ++ x) : Word).extractLsb' 0 8 = x := by
  rw [BitVec.extractLsb'_append_eq_of_add_le (by decide)]
  exact BitVec.extractLsb'_append_eq_right

theorem extractLsb'_0_9_append (p : BitVec 4) (d : BitVec 3) (x : BitVec 9) :
    (p ++ (d ++ x) : Word).extractLsb' 0 9 = x := by
  rw [BitVec.extractLsb'_append_eq_of_add_le (by decide)]
  exact BitVec.extractLsb'_append_eq_right

theorem extractLsb'_0_11_append (p : BitVec 4) (m : BitVec 1) (x : BitVec 11) :
    (p ++ (m ++ x) : Word).extractLsb' 0 11 = x := by
  rw [BitVec.extractLsb'_append_eq_of_add_le (by decide)]
  exact BitVec.extractLsb'_append_eq_right

/-! ### Decoding an encoded instruction -/

theorem encode_in_row (i : Instr) : EncodeInRow.Statement i := by
  cases i with
  | addReg dr sr1 sr2 => exact EncodeInRow.addReg dr sr1 sr2
  | addImm dr sr1 imm5 => exact EncodeInRow.addImm dr sr1 imm5
  | andReg dr sr1 sr2 => exact EncodeInRow.andReg dr sr1 sr2
  | andImm dr sr1 imm5 => exact EncodeInRow.andImm dr sr1 imm5
  | not dr sr => exact EncodeInRow.not dr sr
  | br n z p off9 => exact EncodeInRow.br n z p off9
  | jmp base => exact EncodeInRow.jmp base
  | jsr off11 => exact EncodeInRow.jsr off11
  | jsrr base => exact EncodeInRow.jsrr base
  | ld dr off9 => exact EncodeInRow.ld dr off9
  | ldi dr off9 => exact EncodeInRow.ldi dr off9
  | ldr dr base off6 => exact EncodeInRow.ldr dr base off6
  | lea dr off9 => exact EncodeInRow.lea dr off9
  | st sr off9 => exact EncodeInRow.st sr off9
  | sti sr off9 => exact EncodeInRow.sti sr off9
  | str sr base off6 => exact EncodeInRow.str sr base off6
  | trap vect8 => exact EncodeInRow.trap vect8
  | rti ir => exact EncodeInRow.rti ir
  | res ir => exact EncodeInRow.res ir

theorem tableRow_holds_encode {i : Instr} (hwf : i.wf = true) : (tableRow i.rowName).holds (encode i) = true := by
  obtain ⟨r, hr, hname, hholds⟩ := encode_in_row i hwf
  rwa [← hname, ← eq_tableRow r hr]

/-- The condition bits of BR, at bits 11, 10 and 9. -/
theorem getLsbD_br_append (p : BitVec 4) (n z q : Bool) (x : BitVec 9) :
    (p ++ (BitVec.ofBool n ++ (BitVec.ofBool z ++ (BitVec.ofBool q ++ x))) : Word).getLsbD 11 = n ∧
    (p ++ (BitVec.ofBool n ++ (BitVec.ofBool z ++ (BitVec.ofBool q ++ x))) : Word).getLsbD 10 = z ∧
    (p ++ (BitVec.ofBool n ++ (BitVec.ofBool z ++ (BitVec.ofBool q ++ x))) : Word).getLsbD 9 = q := by
  refine ⟨?_, ?_, ?_⟩ <;> (repeat rw [BitVec.getLsbD_append]) <;> simp

/-- The operand fields are read from where the encoder puts them. -/
theorem readRow_encode (i : Instr) : readRow i.rowName (encode i) = i := by
  cases i with
  | addReg | andReg => rw [Instr.rowName, encode, readRow, regAt_9_append, regAt_6_append, regAt_0_append]
  | addImm | andImm => rw [Instr.rowName, encode, readRow, regAt_9_append, regAt_6_append, extractLsb'_0_5_append]
  | not => rw [Instr.rowName, encode, readRow, regAt_9_append, regAt_6_append]
  | br n z p off9 =>
    obtain ⟨hn, hz, hp⟩ := getLsbD_br_append 0b0000#4 n z p off9
    rw [Instr.rowName, encode, readRow, hn, hz, hp]
    iterate 3 rw [BitVec.extractLsb'_append_eq_of_add_le (by decide)]
    rw [BitVec.extractLsb'_append_eq_right]
  | jmp => rw [Instr.rowName, encode, readRow, regAt_6_append]
  | jsr => rw [Instr.rowName, encode, readRow, extractLsb'_0_11_append]
  | jsrr base =>
    have h : encode (.jsrr base) = 0b0100#4 ++ (0b000#3 ++ (base.toBits ++ 0b000000#6)) := by cases base <;> rfl
    rw [Instr.rowName, h, readRow, regAt_6_append]
  | ld | ldi | lea | st | sti => rw [Instr.rowName, encode, readRow, regAt_9_append, extractLsb'_0_9_append]
  | ldr | str => rw [Instr.rowName, encode, readRow, regAt_9_append, regAt_6_append, extractLsb'_0_6_append]
  | trap => rw [Instr.rowName, encode, readRow, extractLsb'_0_8_append]
  | rti | res => rfl

/-- Settles O1: the word belongs to the instruction's own row, whose operand fields are the instruction's. -/
theorem decodeOfEncode : Obligations.DecodeOfEncode := by
  intro i hwf
  rw [decodeWord_of_row (tableRow_holds_encode hwf), readRow_encode]

end Sys2Proof.Machine

end

/-! ## Proofs: the bits a layout names (30_encoding.md section 4) -/

section

namespace Sys2Proof.Machine

open Sys2Proof.Spec

/-! ### Agreement of two words on some bits -/

/-- The bits `lo + n - 1 : lo` of a word. -/
def fieldMask (lo n : Nat) : Word := (BitVec.allOnes n).setWidth 16 <<< lo

/-- Words that agree on some bits agree on fewer. -/
theorem agree_mono {a b m m' : Word} (hm : m &&& m' = m') (h : a &&& m = b &&& m) : a &&& m' = b &&& m' := by
  rw [← hm, ← BitVec.and_assoc, ← BitVec.and_assoc, h]

/-- Agreement on some bits, bit by bit. -/
theorem agree_iff_getLsbD {a b m : Word} :
    a &&& m = b &&& m ↔ ∀ k, m.getLsbD k = true → a.getLsbD k = b.getLsbD k := by
  constructor
  · intro h k hk
    rw [getLsbD_of_masked h hk, BitVec.getLsbD_and, hk, Bool.and_true]
  · intro h
    apply BitVec.eq_of_getLsbD_eq
    intro k _
    rw [BitVec.getLsbD_and, BitVec.getLsbD_and]
    cases hk : m.getLsbD k with
    | false => rw [Bool.and_false, Bool.and_false]
    | true => rw [h k hk]

theorem agree_or {a b m m' : Word} :
    a &&& (m ||| m') = b &&& (m ||| m') ↔ a &&& m = b &&& m ∧ a &&& m' = b &&& m' := by
  simp only [agree_iff_getLsbD, BitVec.getLsbD_or, Bool.or_eq_true, or_imp, forall_and]

theorem getLsbD_fieldMask {lo n k : Nat} (hn : lo + n ≤ 16) :
    (fieldMask lo n).getLsbD k = true ↔ lo ≤ k ∧ k < lo + n := by
  simp only [fieldMask, BitVec.getLsbD_shiftLeft, BitVec.getLsbD_setWidth, BitVec.getLsbD_allOnes, Bool.and_eq_true,
    Bool.not_eq_true', decide_eq_true_eq, decide_eq_false_iff_not]
  omega

theorem extractLsb'_eq_iff_agree {a b : Word} {lo n : Nat} (hn : lo + n ≤ 16) :
    a.extractLsb' lo n = b.extractLsb' lo n ↔ a &&& fieldMask lo n = b &&& fieldMask lo n := by
  rw [agree_iff_getLsbD]
  constructor
  · intro h k hk
    obtain ⟨hlo, hhi⟩ := (getLsbD_fieldMask hn).mp hk
    have hbit := congrArg (·.getLsbD (k - lo)) h
    have hlt : k - lo < n := by omega
    simpa only [BitVec.getLsbD_extractLsb', hlt, decide_true, Bool.true_and, Nat.add_sub_cancel' hlo] using hbit
  · intro h
    apply BitVec.eq_of_getLsbD_eq
    intro k hk
    rw [BitVec.getLsbD_extractLsb', BitVec.getLsbD_extractLsb',
      h (lo + k) ((getLsbD_fieldMask hn).mpr ⟨by omega, by omega⟩)]

theorem regAt_eq_iff_agree {a b : Word} {lo : Nat} (hn : lo + 3 ≤ 16) :
    regAt a lo = regAt b lo ↔ a &&& fieldMask lo 3 = b &&& fieldMask lo 3 :=
  ofBits_injective.eq_iff.trans (extractLsb'_eq_iff_agree hn)

theorem getLsbD_eq_iff_agree {a b : Word} {lo : Nat} (hn : lo + 1 ≤ 16) :
    a.getLsbD lo = b.getLsbD lo ↔ a &&& fieldMask lo 1 = b &&& fieldMask lo 1 := by
  rw [agree_iff_getLsbD]
  simp only [getLsbD_fieldMask hn]
  constructor
  · intro h k hk
    rwa [show k = lo by omega]
  · exact fun h => h lo (by omega)

/-- The bits of a row's operands, RTI and RES recording the whole word. -/
def operandMask : RowName → Word
  | .addReg | .andReg => fieldMask 9 3 ||| (fieldMask 6 3 ||| fieldMask 0 3)
  | .addImm | .andImm => fieldMask 9 3 ||| (fieldMask 6 3 ||| fieldMask 0 5)
  | .not => fieldMask 9 3 ||| fieldMask 6 3
  | .br => fieldMask 11 1 ||| (fieldMask 10 1 ||| (fieldMask 9 1 ||| fieldMask 0 9))
  | .jmp | .jsrr => fieldMask 6 3
  | .jsr => fieldMask 0 11
  | .ld | .ldi | .lea | .st | .sti => fieldMask 9 3 ||| fieldMask 0 9
  | .ldr | .str => fieldMask 9 3 ||| (fieldMask 6 3 ||| fieldMask 0 6)
  | .trap => fieldMask 0 8
  | .rti | .res => fieldMask 0 16

theorem eq_iff_agree_fieldMask_0_16 {a b : Word} : a = b ↔ a &&& fieldMask 0 16 = b &&& fieldMask 0 16 := by
  rw [show fieldMask 0 16 = BitVec.allOnes 16 by decide, BitVec.and_allOnes, BitVec.and_allOnes]

/-- Two words read alike in a row exactly when they agree on its operands, field by field. -/
theorem readRow_eq_iff_agree (n : RowName) (a b : Word) :
    readRow n a = readRow n b ↔ a &&& operandMask n = b &&& operandMask n := by
  cases n with
  | addReg | andReg | not | jmp | jsrr =>
    simp (disch := decide) [readRow, operandMask, agree_or, regAt_eq_iff_agree]
  | addImm | andImm | ld | ldi | ldr | lea | st | sti | str =>
    simp (disch := decide) [readRow, operandMask, agree_or, regAt_eq_iff_agree, extractLsb'_eq_iff_agree]
  | br =>
    simp (disch := decide) only [readRow, operandMask, agree_or, Instr.br.injEq, getLsbD_eq_iff_agree,
      extractLsb'_eq_iff_agree]
  | jsr | trap => simp (disch := decide) [readRow, operandMask, extractLsb'_eq_iff_agree]
  | rti | res => simpa [readRow, operandMask] using eq_iff_agree_fieldMask_0_16

/-- The layout of a row names its mask and its operands (RTI and RES apart, whose operand is not named by it). -/
theorem examined_eq {n : RowName} (hrti : n ≠ .rti) (hres : n ≠ .res) :
    (tableRow n).examined = (tableRow n).mask ||| operandMask n := by
  cases n with
  | rti => exact absurd rfl hrti
  | res => exact absurd rfl hres
  | _ => decide

/-- In every row the examined bits are among the mask's and the operands'. -/
theorem examined_sub (n : RowName) :
    ((tableRow n).mask ||| operandMask n) &&& (tableRow n).examined = (tableRow n).examined := by
  cases n <;> decide

/-- Words of one row that read alike agree on every bit the layout names. -/
theorem agree_examined_of_readRow_eq {n : RowName} {a b : Word} (ha : (tableRow n).holds a = true)
    (hb : (tableRow n).holds b = true) (h : readRow n a = readRow n b) :
    a &&& (tableRow n).examined = b &&& (tableRow n).examined := by
  have hmask := ((row_holds_iff _ _).mp ha).trans ((row_holds_iff _ _).mp hb).symm
  exact agree_mono (examined_sub n) (agree_or.mpr ⟨hmask, (readRow_eq_iff_agree n a b).mp h⟩)

/-! ### The two directions of R56, and sample words -/

theorem pattern_agrees (n : RowName) : (tableRow n).pattern &&& (tableRow n).mask = (tableRow n).pattern := by
  cases n <;> decide

theorem mask_has_opcode (n : RowName) : (tableRow n).mask &&& fieldMask 12 4 = fieldMask 12 4 := by
  cases n <;> decide

/-- R52: the words of a row have the opcode of its pattern. -/
theorem opcode_of_row {n : RowName} {ir : Word} (h : (tableRow n).holds ir = true) :
    ir.extractLsb' 12 4 = (tableRow n).pattern.extractLsb' 12 4 := by
  have hmask := ((row_holds_iff _ _).mp h).trans (pattern_agrees n).symm
  exact (extractLsb'_eq_iff_agree (by decide)).mpr (agree_mono (mask_has_opcode n) hmask)

/-- The words RTI and RES carry have their own opcode. -/
theorem wf_decodeWord (ir : Word) : (decodeWord ir).wf = true := by
  obtain ⟨n, hn⟩ := exists_tableRow_holds ir
  rw [decodeWord_of_row hn]
  cases n with
  | rti | res => exact decide_eq_true (opcode_of_row hn)
  | _ => rfl

/-- Settles O2: the word and its re-encoding are words of one row that are read alike. -/
theorem encodeOfDecodeOnExaminedBits : Obligations.EncodeOfDecodeOnExaminedBits := by
  intro ir
  have hwf := wf_decodeWord ir
  refine ⟨hwf, fun r hr hholds => ?_⟩
  rw [eq_tableRow_of_holds hr hholds]
  apply agree_examined_of_readRow_eq (tableRow_holds_encode hwf) (holds_decodeWord ir)
  rw [readRow_encode, ← decodeWord_eq_readRow]

/-- Settles O4: agreement on the examined bits puts both words in the row and makes them read alike. -/
theorem ignoredBitsDoNotMatter : Obligations.IgnoredBitsDoNotMatter := by
  intro r ir ir' hr hrti hres hholds hagree
  rw [eq_tableRow r hr] at hholds hagree
  rw [examined_eq hrti hres, agree_or] at hagree
  obtain ⟨hmask, hoperands⟩ := hagree
  have hholds' := (row_holds_iff _ _).mpr (hmask.trans ((row_holds_iff _ _).mp hholds))
  rw [decodeWord_of_row hholds, decodeWord_of_row hholds']
  exact (readRow_eq_iff_agree _ _ _).mpr hoperands

/-- Settles O6: each word meets its row, and its fields compute. -/
theorem sampleWordsDecode : Obligations.SampleWordsDecode := by
  exact ⟨decodeWord_of_addImm_row (by decide), decodeWord_of_addReg_row (by decide), decodeWord_of_br_row (by decide),
    decodeWord_of_ldi_row (by decide), decodeWord_of_str_row (by decide), decodeWord_of_trap_row (by decide)⟩

end Sys2Proof.Machine

end

/-! ## Proofs: JSRR, TRAP, RTI and RES (42_control.md, 45_system.md) -/

section

namespace Sys2Proof.Machine

open Sys2Proof.Spec

/-- Settles O21: BaseR is read after the link write. -/
theorem jumpToSubroutineRegister : Obligations.JumpToSubroutineRegister := by
  refine ⟨fun _ h => decodeWord_of_jsrr_row h, fun base s => ?_⟩
  refine ⟨_, exec_jsrr base s, getReg_r7_setPc_link _ s, ?_, sameRegsBut_r7_setPc_link _ s, controlFrame_setPc_link _ s⟩
  rw [setPc_pc, link_eq]
  by_cases hbase : base = .r7
  · rw [if_pos hbase, hbase, getReg_setReg_same]
  · rw [if_neg hbase, getReg_setReg_ne _ _ hbase]

theorem trapWired_iff (v : TrapVector) (s : State) : trapWired v s = true ↔ v ∉ s.params.unwired := decide_eq_true_iff

theorem trapWired_eq_false_iff (v : TrapVector) (s : State) : trapWired v s = false ↔ v ∈ s.params.unwired := by
  rw [trapWired, decide_eq_false_iff_not, not_not]

/-- R76: zero extension keeps the number of the vector. -/
theorem toNat_zext8 (v : TrapVector) : (zext8 v).toNat = v.toNat := BitVec.toNat_setWidth_of_le (by decide)

/-- Settles O29: the table cell is read where the vector points, since the table is off KBSR. -/
theorem trapOnWiredVector : Obligations.TrapOnWiredVector := by
  refine ⟨fun _ h => decodeWord_of_trap_row h, fun v s hv => ?_⟩
  have hlink := getReg_r7_setPc_link (peek (zext8 v) s) s
  have hregs := sameRegsBut_r7_setPc_link (peek (zext8 v) s) s
  exact ⟨_, zext8 v, exec_trap_wired ((trapWired_iff v s).mpr hv), toNat_zext8 v, rfl, hlink, hregs, rfl, fun _ => rfl,
    rfl, rfl, rfl, rfl, rfl⟩

/-- Settles O30: a listed vector is not wired. -/
theorem trapOnUnwiredVector : Obligations.TrapOnUnwiredVector :=
  fun v s hv => exec_trap_unwired ((trapWired_eq_false_iff v s).mpr hv)

/-- Settles O31: the row of RTI, its meaning, and the record of R150 and R151. -/
theorem rtiFaults : Obligations.RtiFaults :=
  ⟨fun _ h => decodeWord_of_rti_row h, exec_rti, fun _ => ⟨rfl, rfl⟩⟩

/-- Settles O32: the row of RES, its meaning, and the record of R150 and R151. -/
theorem resFaults : Obligations.ResFaults :=
  ⟨fun _ h => decodeWord_of_res_row h, exec_res, fun _ => ⟨rfl, rfl⟩⟩

end Sys2Proof.Machine

end

/-! ## Proofs: what every instruction does (R12, R73, R112) -/

section

namespace Sys2Proof.Machine

open Sys2Proof.Spec

/-! ### Decode gaps and trap events, by instruction -/

/-- The decode gap an instruction raises, if any (R120 to R122). -/
def instrGap (i : Instr) (s : State) : Option DecodeGap :=
  match i with
  | .trap v => if trapWired v s then none else some (.trapUnwired v)
  | .rti ir => some (.rti ir)
  | .res ir => some (.res ir)
  | _ => none

/-- The trap event an instruction emits, if any (R120). -/
def instrEvent (i : Instr) (s : State) : Option TrapVector :=
  match i with
  | .trap v => if trapWired v s then some v else none
  | _ => none

theorem instrGap_trap_wired {v : TrapVector} {s : State} (h : trapWired v s = true) : instrGap (.trap v) s = none :=
  if_pos h

theorem instrGap_trap_unwired {v : TrapVector} {s : State} (h : trapWired v s = false) :
    instrGap (.trap v) s = some (.trapUnwired v) :=
  if_neg (Bool.eq_false_iff.mp h)

/-- The inversion of TRAP's gap. -/
theorem unwired_of_instrGap_trap {v : TrapVector} {s : State} {g : DecodeGap} (h : instrGap (.trap v) s = some g) :
    trapWired v s = false ∧ g = .trapUnwired v := by
  cases hw : trapWired v s with
  | true => exact absurd ((instrGap_trap_wired hw).symm.trans h) nofun
  | false => exact ⟨rfl, Option.some.inj (h.symm.trans (instrGap_trap_unwired hw))⟩

theorem instrEvent_trap_wired {v : TrapVector} {s : State} (h : trapWired v s = true) :
    instrEvent (.trap v) s = some v :=
  if_pos h

theorem instrEvent_trap_unwired {v : TrapVector} {s : State} (h : trapWired v s = false) :
    instrEvent (.trap v) s = none :=
  if_neg (Bool.eq_false_iff.mp h)

/-- The number of the opcode is the word without its low 12 bits. -/
theorem toNat_div_4096 (ir : Word) : ir.toNat / 4096 = (ir.extractLsb' 12 4).toNat := by
  rw [BitVec.extractLsb'_toNat, Nat.shiftRight_eq_div_pow]
  have := ir.isLt
  omega

theorem opcodeNumber_of_row {n : RowName} {ir : Word} (h : (tableRow n).holds ir = true) :
    ir.toNat / 4096 = ((tableRow n).pattern.extractLsb' 12 4).toNat := by
  rw [toNat_div_4096, opcode_of_row h]

/-- The statement's account of the gap of a word is that of the decoded instruction. -/
theorem gapOf_eq_instrGap (ir : Word) (s : State) : gapOf ir s = instrGap (decodeWord ir) s := by
  obtain ⟨n, hn⟩ := exists_tableRow_holds ir
  rw [decodeWord_of_row hn, gapOf, opcodeNumber_of_row hn]
  cases n with
  | trap => simp [tableRow, readRow, instrGap, trapWired]
  | _ => rfl

/-- The opcode, vector and wiring of R120 are what makes the decoded instruction emit an event. -/
theorem instrEvent_decodeWord_eq_some_iff (ir : Word) (s : State) (v : TrapVector) :
    instrEvent (decodeWord ir) s = some v ↔
      ir.toNat / 4096 = 15 ∧ ir.extractLsb' 0 8 = v ∧ v ∉ s.params.unwired := by
  obtain ⟨n, hn⟩ := exists_tableRow_holds ir
  rw [decodeWord_of_row hn, opcodeNumber_of_row hn]
  cases n with
  | trap =>
    have hwired : instrEvent (readRow .trap ir) s = some v ↔ trapWired (ir.extractLsb' 0 8) s = true ∧
        some (ir.extractLsb' 0 8) = some v := Option.ite_none_right_eq_some
    rw [hwired, trapWired_iff]
    constructor
    · rintro ⟨hv, ⟨⟩⟩
      exact ⟨rfl, rfl, hv⟩
    · rintro ⟨-, rfl, hv⟩
      exact ⟨hv, rfl⟩
  | _ => simp [tableRow, readRow, instrEvent]

/-! ### The accesses of an instruction -/

/-- The state an instruction's memory accesses leave, in order: the reads of R100 to R102 and R111, the stores of R110 to
R112. The vector read of TRAP has no effect (`exec_trap_wired`). -/
def accesses (i : Instr) (s : State) : State :=
  match i with
  | .ld _ off9 => (memRead (pcOffset9 off9 s) s).2
  | .ldi _ off9 => (memRead (memRead (pcOffset9 off9 s) s).1 (memRead (pcOffset9 off9 s) s).2).2
  | .ldr _ base off6 => (memRead (baseOffset6 base off6 s) s).2
  | .st sr off9 => poke (pcOffset9 off9 s) (getReg sr s) s
  | .sti sr off9 => poke (memRead (pcOffset9 off9 s) s).1 (getReg sr s) (memRead (pcOffset9 off9 s) s).2
  | .str sr base off6 => poke (baseOffset6 base off6 s) (getReg sr s) s
  | _ => s

theorem ReadFrame.refl (s : State) : ReadFrame s s := ⟨rfl, rfl, rfl, rfl, rfl, rfl⟩

theorem ReadFrame.trans {s t u : State} (h : ReadFrame s t) (k : ReadFrame t u) : ReadFrame s u :=
  ⟨k.regs.trans h.regs, k.pc.trans h.pc, k.cond.trans h.cond, k.status.trans h.status, k.trapEvent.trans h.trapEvent,
    k.params.trans h.params⟩

theorem poke_frame (a v : Word) (s : State) : ReadFrame s (poke a v s) := ⟨rfl, rfl, rfl, rfl, rfl, rfl⟩

/-- Memory accesses leave everything but memory and the keyboard inputs as it was. -/
theorem accesses_frame (i : Instr) (s : State) : ReadFrame s (accesses i s) := by
  cases i with
  | ld | ldr => exact memRead_frame _ s
  | ldi => exact (memRead_frame _ s).trans (memRead_frame _ _)
  | st | str => exact poke_frame _ _ s
  | sti => exact (memRead_frame _ s).trans (poke_frame _ _ _)
  | _ => exact ReadFrame.refl s

theorem accesses_wf (i : Instr) {s : State} (h : s.mem.wf = true) : (accesses i s).mem.wf = true := by
  cases i with
  | ld | ldr => exact memRead_wf h
  | ldi => exact memRead_wf (memRead_wf h)
  | st | str => exact poke_wf h
  | sti => exact poke_wf (memRead_wf h)
  | _ => exact h

/-! ### The answer of every instruction -/

/-- What every instruction's answer `t` has in common: memory and keyboard are those its accesses leave, the run status and
the event are those of its gap and its event, and no register but its own, and no parameter, is changed. -/
structure ExecFrame (i : Instr) (s t : State) : Prop where
  regs : ∀ r, destReg i ≠ some r → getReg r t = getReg r s
  mem : t.mem = (accesses i s).mem
  keys : t.keys = (accesses i s).keys
  polls : t.polls = (accesses i s).polls
  status : t.status = (instrGap i s).elim s.status .faulted
  trapEvent : t.trapEvent = (instrEvent i s).or s.trapEvent
  params : t.params = s.params

theorem ne_of_destReg {i : Instr} {d r : Reg} (hd : destReg i = some d) (hr : destReg i ≠ some r) : r ≠ d :=
  fun h => hr (hd.trans (congrArg some h.symm))

/-- The answer of an instruction that ends in a flagged write to its register. -/
theorem execFrame_writeFlagged {i : Instr} {dr : Reg} (s : State) (v : Word) (hdest : destReg i = some dr)
    (hgap : instrGap i s = none) (hevent : instrEvent i s = none) :
    ExecFrame i s (writeFlagged dr v (accesses i s)) := by
  have hf := accesses_frame i s
  refine ⟨fun r hr => ?_, rfl, rfl, rfl, ?_, ?_, hf.params⟩
  · rw [getReg_writeFlagged_ne _ _ (ne_of_destReg hdest hr), getReg_congr hf.regs]
  · rw [hgap]
    exact hf.status
  · rw [hevent]
    exact hf.trapEvent

/-- The answer of a store: its accesses. -/
theorem execFrame_accesses {i : Instr} (s : State) (hgap : instrGap i s = none) (hevent : instrEvent i s = none) :
    ExecFrame i s (accesses i s) := by
  have hf := accesses_frame i s
  refine ⟨fun r _ => getReg_congr hf.regs r, rfl, rfl, rfl, ?_, ?_, hf.params⟩
  · rw [hgap]
    exact hf.status
  · rw [hevent]
    exact hf.trapEvent

/-- The answer of TRAP in its two cases (R120). -/
theorem exec_trap_frame (v : TrapVector) (s : State) : ∃ t, exec (.trap v) s = .next t ∧ ExecFrame (.trap v) s t := by
  cases hw : trapWired v s with
  | true =>
    refine ⟨_, exec_trap_wired hw, fun r hr => ?_, rfl, rfl, rfl, ?_, ?_, rfl⟩
    · exact sameRegsBut_r7_setPc_link (peek (zext8 v) s) s r (ne_of_destReg rfl hr)
    · rw [instrGap_trap_wired hw]
      rfl
    · rw [instrEvent_trap_wired hw]
      rfl
  | false =>
    refine ⟨_, exec_trap_unwired hw, fun _ _ => rfl, rfl, rfl, rfl, ?_, ?_, rfl⟩
    · rw [instrGap_trap_unwired hw]
      rfl
    · rw [instrEvent_trap_unwired hw]
      rfl

/-- R74: every instruction answers a next state. -/
theorem exec_frame (i : Instr) (s : State) : ∃ t, exec i s = .next t ∧ ExecFrame i s t := by
  cases i with
  | addReg | addImm | andReg | andImm | not | ld | ldi | ldr | lea =>
    exact ⟨_, rfl, execFrame_writeFlagged s _ rfl rfl rfl⟩
  | st | str => exact ⟨_, rfl, execFrame_accesses s rfl rfl⟩
  | sti sr off9 => exact ⟨_, exec_sti sr off9 s, execFrame_accesses (i := .sti sr off9) s rfl rfl⟩
  | br n z p off9 =>
    by_cases h : branchTaken n z p s.cond = true
    · exact ⟨_, exec_br_taken off9 h, fun _ _ => rfl, rfl, rfl, rfl, rfl, rfl, rfl⟩
    · exact ⟨_, exec_br_not_taken off9 h, fun _ _ => rfl, rfl, rfl, rfl, rfl, rfl, rfl⟩
  | jmp | rti | res => exact ⟨_, rfl, fun _ _ => rfl, rfl, rfl, rfl, rfl, rfl, rfl⟩
  | jsr | jsrr =>
    exact ⟨_, rfl, fun r hr => sameRegsBut_r7_setPc_link _ s r (ne_of_destReg rfl hr), rfl, rfl, rfl, rfl, rfl, rfl⟩
  | trap v => exact exec_trap_frame v s

/-- The inversion of `exec`: any answer it gives has the frame of the instruction. -/
theorem execFrame_of_exec {i : Instr} {s t : State} (h : exec i s = .next t) : ExecFrame i s t := by
  obtain ⟨u, hu, hframe⟩ := exec_frame i s
  rwa [Host.Outcome.next.inj (h.symm.trans hu)]

/-- A decode gap changes the run status and nothing else (R150, R151). -/
theorem exec_of_gap {i : Instr} {s : State} {g : DecodeGap} (h : instrGap i s = some g) :
    exec i s = .next { s with status := .faulted g } := by
  cases i with
  | trap v =>
    obtain ⟨hw, rfl⟩ := unwired_of_instrGap_trap h
    exact exec_trap_unwired hw
  | rti | res =>
    cases h
    rfl
  | _ => cases h

/-- R20: an instruction that raises no gap leaves the run status. -/
theorem exec_status_of_no_gap {i : Instr} {s t : State} (h : exec i s = .next t) (hgap : instrGap i s = none) :
    t.status = s.status := by
  rw [(execFrame_of_exec h).status, hgap]
  rfl

/-- Settles O38: the registers of the common frame. -/
theorem registerWriters : Obligations.RegisterWriters :=
  fun _ _ _ r h hr => (execFrame_of_exec h).regs r hr

/-! ### The cells the accesses leave (R112) -/

/-- A read that makes no poll is off KBSR. -/
theorem ne_kbsr_of_no_poll {a : Word} {s : State} (h : (memRead a s).2.polls = s.polls) : a ≠ kbsr := by
  intro ha
  rw [memRead_polls, if_pos ha] at h
  omega

/-- The cells a read leaves: all of them without a poll, all but KBSR and KBDR with one. -/
theorem peek_memRead_snd {a b : Word} {s : State} (hwf : s.mem.wf = true)
    (h : (memRead a s).2.polls = s.polls ∨ b ≠ kbsr ∧ b ≠ kbdr) : peek b (memRead a s).2 = peek b s := by
  obtain hpoll | ⟨hsr, hdr⟩ := h
  · rw [memRead_of_ne s (ne_kbsr_of_no_poll hpoll)]
  · exact peek_memRead_snd_ne hwf hsr hdr

theorem polls_le_memRead (a : Word) (s : State) : s.polls ≤ (memRead a s).2.polls := by
  rw [memRead_polls]
  exact Nat.le_add_right ..

/-- Without a poll an instruction's accesses change only the cell it stores to; a poll may change KBSR and KBDR. -/
theorem peek_accesses {i : Instr} {s : State} {a : Word} (hwf : s.mem.wf = true) (hstore : storeAddress i s ≠ some a)
    (h : (accesses i s).polls = s.polls ∨ a ≠ kbsr ∧ a ≠ kbdr) : peek a (accesses i s) = peek a s := by
  have hne {b : Word} (hb : storeAddress i s = some b) : a ≠ b := fun e => hstore (hb.trans (congrArg some e.symm))
  cases i with
  | ld | ldr => exact peek_memRead_snd hwf h
  | ldi dr off9 =>
    have h1 := polls_le_memRead (pcOffset9 off9 s) s
    have h2 := polls_le_memRead (memRead (pcOffset9 off9 s) s).1 (memRead (pcOffset9 off9 s) s).2
    simp only [accesses] at h ⊢
    rw [peek_memRead_snd (memRead_wf hwf) (h.imp_left fun _ => by omega),
      peek_memRead_snd hwf (h.imp_left fun _ => by omega)]
  | st | str => exact peek_poke_ne hwf (hne rfl)
  | sti => exact (peek_poke_ne (memRead_wf hwf) (hne rfl)).trans (peek_memRead_snd hwf h)
  | _ => rfl

/-- Settles O39: memory and the poll count of the answer are those the accesses leave. -/
theorem memoryWriters : Obligations.MemoryWriters := by
  intro i s t a hwf h hstore hpoll
  have hf := execFrame_of_exec h
  rw [peek_congr hf.mem]
  rw [hf.polls] at hpoll
  exact peek_accesses hwf hstore hpoll

/-- R57 and R150 by instruction: the run status after a decoded word. -/
theorem status_running_iff {ir : Word} {s t : State} (hs : s.status = .running) (h : exec (decodeWord ir) s = .next t) :
    t.status = .running ↔ gapOf ir s = none := by
  rw [(execFrame_of_exec h).status, gapOf_eq_instrGap, hs]
  cases instrGap (decodeWord ir) s <;> simp

/-- Settles O3: the row is the decoded instruction's own. -/
theorem everyWordSelectsOneRow : Obligations.EveryWordSelectsOneRow := by
  refine ⟨fun ir => ?_, fun ir s hs => ?_⟩
  · exact ⟨_, tableRow_mem _, holds_decodeWord ir, (tableRow_name _).symm, fun q hq hholds => eq_tableRow_of_holds hq hholds⟩
  · obtain ⟨t, ht, -⟩ := exec_frame (decodeWord ir) s
    exact ⟨t, ht, status_running_iff hs ht⟩

end Sys2Proof.Machine

end

/-! ## Proofs: the keyboard update and the effective addresses (20_memory.md, 40_fetch_dispatch.md) -/

section

namespace Sys2Proof.Machine

open Sys2Proof.Spec

/-- Settles O9: each address is the base plus a sign-extended field. -/
theorem effectiveAddresses : Obligations.EffectiveAddresses := fun _ _ _ _ _ =>
  ⟨offsetFrom_add_sext (by decide) .., offsetFrom_add_sext (by decide) .., offsetFrom_add_sext (by decide) ..⟩

theorem pollAnswer_of_cons {s : State} {k : Word} {ks : List Word} (h : s.keys = k :: ks) : pollAnswer s = k := by
  rw [pollAnswer, h]

/-- KBDR after the keyboard update: the key, or as before where there is none (R34). -/
theorem peek_kbdr_keyboardUpdate {s : State} (h : s.mem.wf = true) :
    peek kbdr (keyboardUpdate s) = if pollAnswer s = 0#16 then peek kbdr s else pollAnswer s := by
  have hpoll : (afterPoll s).mem.wf = true := h
  obtain ⟨hk, e⟩ | ⟨hk, e⟩ := keyboardUpdate_cases s <;> rw [e]
  · rw [if_pos hk, peek_poke_ne hpoll kbsr_ne_kbdr.symm]
    rfl
  · rw [if_neg hk, peek_poke_same (poke_wf hpoll)]

/-- Settles O11: the two cells by their lemmas, every other cell and field by its own. -/
theorem keyboardUpdateEffect : Obligations.KeyboardUpdateEffect := by
  intro s hwf
  have hf := keyboardUpdate_frame s
  have hsr := peek_kbsr_keyboardUpdate hwf
  have hdr := peek_kbdr_keyboardUpdate hwf
  refine ⟨fun k ks => pollAnswer_of_cons, fun hk => ⟨hsr.trans (if_pos hk), hdr.trans (if_pos hk)⟩, fun hk => ?_,
    fun a => peek_keyboardUpdate_ne hwf, keyboardUpdate_keys s, keyboardUpdate_polls s, getReg_congr hf.regs, hf.pc, hf.cond,
    hf.status, hf.trapEvent, hf.params⟩
  rw [if_neg hk] at hsr
  exact ⟨hdr.trans (if_neg hk), fun hw => hsr.trans (congrArg (readyWord · _) hw),
    fun hw => hsr.trans (congrArg (readyWord · _) hw)⟩

end Sys2Proof.Machine

end

/-! ## Proofs: the step (40_fetch_dispatch.md) -/

section

namespace Sys2Proof.Machine

open Sys2Proof.Spec

/-! ### The fetch, and the step in its two cases -/

/-- The word a RUNNING step fetches (R71). -/
def fetchWord (s : State) : Word := (memRead s.pc (beginStep s)).1

/-- The state in which a RUNNING step dispatches: after fetch and increment (R71, R72). -/
def fetchState (s : State) : State := advancePc (memRead s.pc (beginStep s)).2

theorem step_of_running {s : State} (h : s.status = .running) : step s = exec (decodeWord (fetchWord s)) (fetchState s) := by
  rw [step, h]
  rfl

theorem step_of_faulted {s : State} {g : DecodeGap} (h : s.status = .faulted g) : step s = .next s := by
  rw [step, h]

/-- The fetch is a `MemRead` in the state whose trap event is cleared. -/
theorem fetch_frame (s : State) : ReadFrame (beginStep s) (memRead s.pc (beginStep s)).2 := memRead_frame ..

@[simp] theorem fetchState_regs (s : State) : (fetchState s).regs = s.regs := (fetch_frame s).regs
@[simp] theorem fetchState_cond (s : State) : (fetchState s).cond = s.cond := (fetch_frame s).cond
@[simp] theorem fetchState_status (s : State) : (fetchState s).status = s.status := (fetch_frame s).status
@[simp] theorem fetchState_trapEvent (s : State) : (fetchState s).trapEvent = none := (fetch_frame s).trapEvent
@[simp] theorem fetchState_params (s : State) : (fetchState s).params = s.params := (fetch_frame s).params

@[simp] theorem fetchState_pc (s : State) : (fetchState s).pc = s.pc + 1#16 := by
  rw [fetchState, advancePc_eq, setPc_pc, (fetch_frame s).pc, beginStep_pc]

theorem fetchState_wf {s : State} (h : s.mem.wf = true) : (fetchState s).mem.wf = true :=
  memRead_wf (s := beginStep s) h

theorem fetchState_polls (s : State) : (fetchState s).polls = s.polls + if s.pc = kbsr then 1 else 0 :=
  memRead_polls s.pc (beginStep s)

/-- Off KBSR the fetch is a plain read (R36). -/
theorem fetchWord_of_ne {s : State} (h : s.pc ≠ kbsr) : fetchWord s = peek s.pc s := by
  rw [fetchWord, memRead_of_ne _ h]
  rfl

theorem fetchState_of_ne {s : State} (h : s.pc ≠ kbsr) :
    fetchState s = { s with pc := s.pc + 1#16, trapEvent := none } := by
  rw [fetchState, memRead_of_ne _ h]
  rfl

/-- At KBSR the fetch is a keyboard update and a read of the status word (R36). -/
theorem fetchState_of_kbsr {s : State} (h : s.pc = kbsr) :
    fetchState s = advancePc (keyboardUpdate (beginStep s)) := by
  rw [fetchState, h, memRead_kbsr]

/-- R36 for every other address: the step runs the stored cell of the PC. -/
theorem step_of_ne {s : State} (hs : s.status = .running) (hpc : s.pc ≠ kbsr) :
    step s = exec (decodeWord (peek s.pc s)) { s with pc := s.pc + 1#16, trapEvent := none } := by
  rw [step_of_running hs, fetchWord_of_ne hpc, fetchState_of_ne hpc]

/-- The fetched word is the cell as the fetch leaves it. -/
theorem fetchWord_eq_peek (s : State) : fetchWord s = peek s.pc (fetchState s) := rfl

/-- The statements name the fetch by the `MemRead` it is. -/
theorem fetch_of_memRead {s s1 : State} {ir : Word} (h : memRead s.pc { s with trapEvent := none } = (ir, s1)) :
    fetchWord s = ir ∧ fetchState s = advancePc s1 ∧ s1.pc = s.pc := by
  have h' : memRead s.pc (beginStep s) = (ir, s1) := h
  have hf := fetch_frame s
  rw [h'] at hf
  rw [fetchWord, fetchState, h']
  exact ⟨rfl, rfl, hf.pc⟩

/-- Settles O33: the two cases of the step, with the fetch named as the statement names it. -/
theorem stepRunsDecodedInstruction : Obligations.StepRunsDecodedInstruction := by
  refine ⟨fun s s1 ir hs h => ?_, fun s hs hpc => step_of_ne hs hpc, fun s g hs => step_of_faulted hs⟩
  obtain ⟨hword, hstate, hpc⟩ := fetch_of_memRead h
  rw [step_of_running hs, hword, hstate]
  exact ⟨rfl, hpc⟩

/-- Settles O35: a FAULTED state answers itself, and every instruction answers. -/
theorem everyStepCompletes : Obligations.EveryStepCompletes := by
  intro s
  cases hs : s.status with
  | faulted g => exact ⟨s, step_of_faulted hs⟩
  | running =>
    obtain ⟨t, ht, -⟩ := exec_frame (decodeWord (fetchWord s)) (fetchState s)
    exact ⟨t, (step_of_running hs).trans ht⟩

/-- Everything a step can do: nothing when FAULTED, and when RUNNING the decoded instruction after the fetch. -/
theorem step_inversion {s t : State} (h : step s = .next t) :
    ((∃ g, s.status = .faulted g) ∧ t = s) ∨
    (s.status = .running ∧ exec (decodeWord (fetchWord s)) (fetchState s) = .next t) :=
  step_cases h

theorem exec_of_step {s t : State} (hs : s.status = .running) (h : step s = .next t) :
    exec (decodeWord (fetchWord s)) (fetchState s) = .next t :=
  (step_of_running hs).symm.trans h

/-- A decode gap depends on the parameters alone. -/
theorem gapOf_fetchState (ir : Word) (s : State) : gapOf ir (fetchState s) = gapOf ir s := by
  simp only [gapOf, fetchState_params]

/-- Settles O36: a word with a gap changes only the run status, and a word without one leaves the machine RUNNING. -/
theorem onlyDecodeGapsFault : Obligations.OnlyDecodeGapsFault := by
  intro s t s1 ir hs h ht
  obtain ⟨rfl, hstate, hpc⟩ := fetch_of_memRead h
  have hexec := exec_of_step hs ht
  constructor
  · intro g hg
    rw [← gapOf_fetchState, gapOf_eq_instrGap] at hg
    have hgap := Host.Outcome.next.inj (hexec.symm.trans (exec_of_gap hg))
    rw [hgap, hstate, ← hpc]
    rfl
  · intro hg
    rw [← gapOf_fetchState] at hg
    exact (status_running_iff ((fetchState_status s).trans hs) hexec).mpr hg

/-- Settles O44: the event of the frame, none standing when the instruction begins. -/
theorem trapEventMeansTrap : Obligations.TrapEventMeansTrap := by
  intro s t s1 ir v hs h ht
  obtain ⟨rfl, -, -⟩ := fetch_of_memRead h
  rw [(execFrame_of_exec (exec_of_step hs ht)).trapEvent, fetchState_trapEvent, Option.or_none,
    instrEvent_decodeWord_eq_some_iff, fetchState_params]

/-- Settles O45: neither the fetch nor an instruction changes them. -/
theorem stepKeepsParams : Obligations.StepKeepsParams := by
  intro s t h
  obtain ⟨-, rfl⟩ | ⟨-, hexec⟩ := step_inversion h
  · rfl
  · rw [(execFrame_of_exec hexec).params, fetchState_params]

theorem ne_none_of_flagsDescribe {c : Cond} {v : Word} (h : FlagsDescribe c v) : c ≠ .none := by
  rintro rfl
  obtain ⟨hz, hp, hn⟩ := h
  simp only [reduceCtorEq, false_iff] at hz hp hn
  omega

/-- Settles O46: an instruction leaves COND or describes a word by it, and no word is described by no flag. -/
theorem flagsStaySet : Obligations.FlagsStaySet := by
  intro s t hc h
  obtain ⟨-, rfl⟩ | ⟨-, hexec⟩ := step_inversion h
  · exact hc
  · cases hd : flagDest (decodeWord (fetchWord s)) with
    | some dr => exact ne_none_of_flagsDescribe (exec_flagsDescribe hd hexec)
    | none => rwa [exec_keeps_cond hd hexec, fetchState_cond]

/-! ### The cells after a fetch from KBSR -/

theorem fetchState_mem_of_kbsr {s : State} (hpc : s.pc = kbsr) :
    (fetchState s).mem = (keyboardUpdate (beginStep s)).mem := by
  rw [fetchState_of_kbsr hpc]
  rfl

theorem peek_fetchState_ne {s : State} (hwf : s.mem.wf = true) {a : Word} (hsr : a ≠ kbsr) (hdr : a ≠ kbdr) :
    peek a (fetchState s) = peek a s :=
  peek_memRead_snd_ne (s := beginStep s) hwf hsr hdr

theorem peek_kbsr_fetchState {s : State} (hwf : s.mem.wf = true) (hpc : s.pc = kbsr) :
    peek kbsr (fetchState s) = if pollAnswer s = 0#16 then 0#16 else readyWord s.params.kbsrReadyWrite (peek kbsr s) :=
  (peek_congr (fetchState_mem_of_kbsr hpc) kbsr).trans (peek_kbsr_keyboardUpdate (s := beginStep s) hwf)

theorem peek_kbdr_fetchState {s : State} (hwf : s.mem.wf = true) (hpc : s.pc = kbsr) :
    peek kbdr (fetchState s) = if pollAnswer s = 0#16 then peek kbdr s else pollAnswer s :=
  (peek_congr (fetchState_mem_of_kbsr hpc) kbdr).trans (peek_kbdr_keyboardUpdate (s := beginStep s) hwf)

/-- BR with no condition bit does nothing. -/
theorem exec_decodeWord_zero (s : State) : exec (decodeWord 0#16) s = .next s := by
  rw [decodeWord_of_br_row (by decide)]
  exact exec_br_not_taken _ fun h => by simp [branchTaken_iff_flag] at h

theorem exec_decodeWord_0x8000 (s : State) :
    exec (decodeWord 0x8000#16) s = .next { s with status := .faulted (.rti 0x8000#16) } := by
  rw [decodeWord_of_rti_row (by decide), exec_rti]

/-- Settles O34: the word executed is KBSR as the keyboard update leaves it, 0x0000 without a key and 0x8000 with one. -/
theorem fetchFromKbsr : Obligations.FetchFromKbsr := by
  intro s hwf hs hpc hassign
  replace hpc : s.pc = kbsr := hpc
  have hpc' : (fetchState s).pc = 0xFE01#16 := by rw [fetchState_pc, hpc]; rfl
  have hpolls : (fetchState s).polls = s.polls + 1 := by rw [fetchState_polls, if_pos hpc]
  have hregs : SameRegs s (fetchState s) := getReg_congr (fetchState_regs s)
  have hother : ∀ a, a ≠ kbsr → a ≠ kbdr → peek a (fetchState s) = peek a s := fun _ => peek_fetchState_ne hwf
  have hsr := peek_kbsr_fetchState hwf hpc
  have hdr := peek_kbdr_fetchState hwf hpc
  rw [step_of_running hs, fetchWord_eq_peek, hpc]
  by_cases hk : pollAnswer s = 0#16
  · rw [if_pos hk] at hsr hdr
    rw [hsr, exec_decodeWord_zero]
    exact ⟨_, rfl, hpc', hregs, fetchState_cond s, hpolls, hother,
      fun _ => ⟨(fetchState_status s).trans hs, hsr, hdr⟩, fun h => absurd hk h⟩
  · rw [if_neg hk] at hsr hdr
    rw [hassign, readyWord] at hsr
    rw [hsr, exec_decodeWord_0x8000]
    exact ⟨_, rfl, hpc', hregs, fetchState_cond s, hpolls, hother, fun h => absurd h hk, fun _ => ⟨rfl, hsr, hdr⟩⟩

/-! ### Polls (C8(d)) -/

/-- No instruction uncounts a poll. -/
theorem exec_polls_le {i : Instr} {s t : State} (h : exec i s = .next t) : s.polls ≤ t.polls := by
  rw [(execFrame_of_exec h).polls]
  cases i with
  | ld | ldr | sti => exact polls_le_memRead _ s
  | ldi => exact (polls_le_memRead _ s).trans (polls_le_memRead _ _)
  | _ => exact le_rfl

theorem memRead_polls_le (a : Word) (s : State) : (memRead a s).2.polls ≤ s.polls + 1 := by
  rw [memRead_polls]
  split <;> omega

/-- Only an LDI whose pointer is read from KBSR, and points to KBSR, polls twice. -/
theorem exec_polls_le_one_or_ldi {i : Instr} {s t : State} (h : exec i s = .next t) :
    t.polls ≤ s.polls + 1 ∨ t.polls ≤ s.polls + 2 ∧
      ∃ dr off9, i = .ldi dr off9 ∧ pcOffset9 off9 s = kbsr ∧ peek kbsr (keyboardUpdate s) = kbsr := by
  rw [(execFrame_of_exec h).polls]
  cases i with
  | ld | ldr | sti => exact .inl (memRead_polls_le _ s)
  | ldi dr off9 =>
    by_cases hptr : pcOffset9 off9 s = kbsr
    · simp only [accesses, hptr, memRead_kbsr]
      by_cases hdata : peek kbsr (keyboardUpdate s) = kbsr
      · have h2 := memRead_polls_le (peek kbsr (keyboardUpdate s)) (keyboardUpdate s)
        rw [keyboardUpdate_polls] at h2
        exact .inr ⟨h2, dr, off9, rfl, hptr, hdata⟩
      · rw [memRead_of_ne _ hdata, keyboardUpdate_polls]
        exact .inl le_rfl
    · simp only [accesses, memRead_of_ne _ hptr]
      exact .inl (memRead_polls_le _ s)
  | _ => exact .inl (Nat.le_succ _)

/-- A poll leaves KBSR the address of KBSR only under `or`, and from an even word: bit 0 is kept. -/
theorem kbsr_of_peek_keyboardUpdate {s : State} (hwf : s.mem.wf = true) (h : peek kbsr (keyboardUpdate s) = kbsr) :
    s.params.kbsrReadyWrite ≠ .assign ∧ (peek kbsr s).getLsbD 0 = false := by
  rw [peek_kbsr_keyboardUpdate hwf] at h
  split at h
  next => exact absurd h (by decide)
  next =>
    cases hrw : s.params.kbsrReadyWrite with
    | assign =>
      rw [hrw, readyWord] at h
      exact absurd h (by decide)
    | or =>
      rw [hrw] at h
      have hbit := congrArg (·.getLsbD 0) h
      simpa [readyWord, kbsr] using hbit

/-- From the word after KBSR the 9-bit offset back to it is odd. -/
theorem getLsbD_off9_of_pcOffset9 {off9 : BitVec 9} {s : State} (hpc : s.pc = kbsr + 1#16) (h : pcOffset9 off9 s = kbsr) :
    off9.getLsbD 0 = true := by
  have hsext : sext off9 = 0xFFFF#16 := by
    rw [pcOffset9, hpc] at h
    simp only [kbsr] at h
    bv_omega
  have hbit := getLsbD_sext off9 (k := 0) (by decide)
  rw [hsext] at hbit
  exact hbit.symm

theorem off9_of_decodeWord_ldi {ir : Word} {dr : Reg} {off9 : BitVec 9} (h : decodeWord ir = .ldi dr off9) :
    off9 = ir.extractLsb' 0 9 := by
  have hread := decodeWord_eq_readRow ir
  rw [h] at hread
  exact (Instr.ldi.inj hread).2

/-- The instruction fetched from KBSR never polls twice: it would be an LDI with an odd offset, hence an odd word. -/
theorem exec_polls_of_fetch_kbsr {s t : State} (hwf : s.mem.wf = true) (hpc : s.pc = kbsr)
    (h : exec (decodeWord (fetchWord s)) (fetchState s) = .next t) : t.polls ≤ (fetchState s).polls + 1 := by
  obtain hle | ⟨-, dr, off9, hldi, hptr, hdata⟩ := exec_polls_le_one_or_ldi h
  · exact hle
  · have hodd := getLsbD_off9_of_pcOffset9 ((fetchState_pc s).trans (by rw [hpc])) hptr
    obtain ⟨-, heven⟩ := kbsr_of_peek_keyboardUpdate (fetchState_wf hwf) hdata
    rw [off9_of_decodeWord_ldi hldi, fetchWord_eq_peek, hpc, BitVec.getLsbD_extractLsb', Nat.zero_add, heven] at hodd
    exact absurd hodd (by decide)

/-- Under `assign` the word fetched from KBSR is a BR that tests nothing or an RTI: no second poll. -/
theorem exec_polls_of_fetch_kbsr_assign {s t : State} (hwf : s.mem.wf = true) (hpc : s.pc = kbsr)
    (hassign : s.params.kbsrReadyWrite = .assign) (h : exec (decodeWord (fetchWord s)) (fetchState s) = .next t) :
    t.polls = (fetchState s).polls := by
  rw [fetchWord_eq_peek, hpc, peek_kbsr_fetchState hwf hpc, hassign, readyWord] at h
  split at h
  · rw [exec_decodeWord_zero] at h
    cases h
    rfl
  · rw [exec_decodeWord_0x8000] at h
    cases h
    rfl

/-- Settles O40: the fetch polls only at KBSR, and there the instruction polls once less. -/
theorem pollsPerStep : Obligations.PollsPerStep := by
  intro s t hwf h
  obtain ⟨-, rfl⟩ | ⟨-, hexec⟩ := step_inversion h
  · exact ⟨le_rfl, Nat.le_add_right .., fun _ => Nat.le_add_right ..⟩
  · have hmono := exec_polls_le hexec
    have hfetch := fetchState_polls s
    by_cases hpc : s.pc = kbsr
    · rw [if_pos hpc] at hfetch
      have hone := exec_polls_of_fetch_kbsr hwf hpc hexec
      refine ⟨by omega, by omega, fun hassign => ?_⟩
      have hzero := exec_polls_of_fetch_kbsr_assign hwf hpc hassign hexec
      omega
    · rw [if_neg hpc] at hfetch
      obtain hone | ⟨htwo, dr, off9, -, -, hdata⟩ := exec_polls_le_one_or_ldi hexec
      · exact ⟨by omega, by omega, fun _ => by omega⟩
      · obtain ⟨hor, -⟩ := kbsr_of_peek_keyboardUpdate (fetchState_wf hwf) hdata
        rw [fetchState_params] at hor
        exact ⟨by omega, by omega, fun hassign => absurd hassign hor⟩

/-! ### The keyboard's answers as an input (R134): the state with another list of answers -/

/-- The environment's answers replaced by `ks`: only the listed answers differ. -/
def setKeys (ks : List Word) (s : State) : State := { s with keys := ks }

@[simp] theorem pcOffset9_setKeys (o : BitVec 9) (ks : List Word) (s : State) :
    pcOffset9 o (setKeys ks s) = pcOffset9 o s := rfl

theorem loadFrom_of_ne (dr : Reg) {ea : Word} (s : State) (h : ea ≠ kbsr) :
    loadFrom dr ea s = writeFlagged dr (peek ea s) s := by
  rw [loadFrom_eq, memRead_of_ne s h]

/-- Without a poll the reads of an instruction are plain, so the answers are neither used up nor used. -/
theorem exec_setKeys {i : Instr} {s t : State} (ks : List Word) (h : exec i s = .next t) (hpolls : t.polls = s.polls) :
    t.keys = s.keys ∧ exec i (setKeys ks s) = .next (setKeys ks t) := by
  rw [(execFrame_of_exec h).polls] at hpolls
  cases i with
  | ld dr off9 =>
    have hne := ne_kbsr_of_no_poll hpolls
    rw [exec_ld, loadFrom_of_ne dr s hne] at h
    cases h
    exact ⟨rfl, congrArg _ (loadFrom_of_ne dr (setKeys ks s) hne)⟩
  | ldr dr base off6 =>
    have hne := ne_kbsr_of_no_poll hpolls
    rw [exec_ldr, loadFrom_of_ne dr s hne] at h
    cases h
    exact ⟨rfl, congrArg _ (loadFrom_of_ne dr (setKeys ks s) hne)⟩
  | ldi dr off9 =>
    have hptr : pcOffset9 off9 s ≠ kbsr := ne_kbsr_of_no_poll <|
      le_antisymm ((polls_le_memRead _ _).trans hpolls.le) (polls_le_memRead _ _)
    simp only [accesses, memRead_of_ne s hptr] at hpolls
    have hdata := ne_kbsr_of_no_poll hpolls
    rw [exec_ldi, memRead_of_ne s hptr, loadFrom_of_ne dr s hdata] at h
    cases h
    refine ⟨rfl, ?_⟩
    rw [exec_ldi, pcOffset9_setKeys, memRead_of_ne (setKeys ks s) hptr]
    exact congrArg _ (loadFrom_of_ne dr (setKeys ks s) hdata)
  | sti sr off9 =>
    have hptr : pcOffset9 off9 s ≠ kbsr := ne_kbsr_of_no_poll hpolls
    rw [exec_sti, memRead_of_ne s hptr] at h
    cases h
    refine ⟨rfl, ?_⟩
    rw [exec_sti, pcOffset9_setKeys, memRead_of_ne (setKeys ks s) hptr]
    rfl
  | trap v =>
    cases hw : trapWired v s with
    | true =>
      rw [exec_trap_wired hw] at h
      cases h
      exact ⟨rfl, exec_trap_wired (s := setKeys ks s) hw⟩
    | false =>
      rw [exec_trap_unwired hw] at h
      cases h
      exact ⟨rfl, exec_trap_unwired (s := setKeys ks s) hw⟩
  | br n z p off9 =>
    by_cases hb : branchTaken n z p s.cond = true
    · rw [exec_br_taken off9 hb] at h
      cases h
      exact ⟨rfl, exec_br_taken (s := setKeys ks s) off9 hb⟩
    · rw [exec_br_not_taken off9 hb] at h
      cases h
      exact ⟨rfl, exec_br_not_taken (s := setKeys ks s) off9 hb⟩
  | _ =>
    cases h
    exact ⟨rfl, rfl⟩

/-- Settles O41: without a poll the fetch is plain too, so both steps run one instruction in states that differ in the
answers. -/
theorem noPollNoKeyboardInfluence : Obligations.NoPollNoKeyboardInfluence := by
  intro s t ks h hpolls
  obtain ⟨⟨g, hs⟩, rfl⟩ | ⟨hs, hexec⟩ := step_inversion h
  · exact ⟨rfl, step_of_faulted hs⟩
  · have hfetch := fetchState_polls s
    have hmono := exec_polls_le hexec
    have hpc : s.pc ≠ kbsr := fun hpc => by
      rw [if_pos hpc] at hfetch
      omega
    rw [step_of_ne hs hpc] at h
    obtain ⟨hkeys, hsame⟩ := exec_setKeys ks h hpolls
    exact ⟨hkeys, (step_of_ne (s := setKeys ks s) hs hpc).trans hsame⟩

/-! ### Stores seen by the fetch (20_memory.md section 4), and empty memory -/

/-- A store instruction answers a poke of its register at its address, in a state its reads left. -/
theorem exec_store {i : Instr} {s : State} {sr : Reg} {a : Word} (hsr : storedReg i = some sr)
    (ha : storeAddress i s = some a) :
    ∃ s1, ReadFrame s s1 ∧ (s.mem.wf = true → s1.mem.wf = true) ∧ exec i s = .next (poke a (getReg sr s) s1) := by
  cases i with
  | st r off9 =>
    cases hsr
    cases ha
    exact ⟨s, ReadFrame.refl s, id, exec_st sr off9 s⟩
  | sti r off9 =>
    cases hsr
    cases ha
    exact ⟨_, memRead_frame _ s, memRead_wf, exec_sti sr off9 s⟩
  | str r base off6 =>
    cases hsr
    cases ha
    exact ⟨s, ReadFrame.refl s, id, exec_str sr base off6 s⟩
  | _ => cases hsr

/-- Settles O42: the fetch reads the cell the store wrote. -/
theorem storeIsSeenByNextFetch : Obligations.StoreIsSeenByNextFetch := by
  intro i s t sr hwf hs hsr ha hpc h
  obtain ⟨s1, hf, hwf1, hexec⟩ := exec_store hsr ha
  obtain rfl := Host.Outcome.next.inj (h.symm.trans hexec)
  have hpc1 : (poke s.pc (getReg sr s) s1).pc = s.pc := hf.pc
  have hs1 : (poke s.pc (getReg sr s) s1).status = .running := hf.status.trans hs
  rw [step_of_ne hs1 (hpc1 ▸ hpc), hpc1, peek_poke_same (hwf1 hwf)]

/-- R181: an empty memory gives a BR that tests nothing. -/
theorem step_of_empty {s : State} (hs : s.status = .running) (hmem : s.mem = []) (hpc : s.pc ≠ kbsr) :
    step s = .next { s with pc := s.pc + 1#16, trapEvent := none } := by
  have hcell : peek s.pc s = 0#16 := by rw [peek, hmem, memGet]
  rw [step_of_ne hs hpc, hcell, exec_decodeWord_zero]

/-- Settles O43, by induction on the number of steps. -/
theorem emptyMemoryOnlyCountsUp : Obligations.EmptyMemoryOnlyCountsUp := by
  intro n
  induction n with
  | zero => exact fun s hs hmem _ => ⟨s, rfl, rfl, hmem, rfl, rfl, hs, rfl⟩
  | succ n ih =>
    intro s hs hmem hle
    have hpc : s.pc ≠ kbsr := fun h => by
      have hk : kbsr.toNat = 0xFE00 := rfl
      rw [h] at hle
      omega
    have hstep := step_of_empty hs hmem hpc
    have hnext : (s.pc + 1#16).toNat = s.pc.toNat + 1 := by bv_omega
    obtain ⟨t, hrun, htpc, hrest⟩ := ih { s with pc := s.pc + 1#16, trapEvent := none } hs hmem (by simp only [hnext]; omega)
    refine ⟨t, (core_run_succ n hstep).trans hrun, ?_, hrest⟩
    simp only [hnext] at htpc
    omega

end Sys2Proof.Machine

end

/-! ## Proofs: the invariant, reset and loading (50_interfaces.md, 60_exceptions.md, 70_reset_and_hazards.md) -/

section

namespace Sys2Proof.Machine

open Sys2Proof.Spec

/-! ### The invariant -/

theorem faultRecordOk_of_running {s : State} (h : s.status = .running) : s.faultRecordOk = true := by
  rw [State.faultRecordOk, h]

/-- A well-formed instruction records a fault that agrees with it (R150, R151). -/
theorem faultRecordOk_of_gap {i : Instr} {s : State} {g : DecodeGap} (hwf : i.wf = true) (hg : instrGap i s = some g) :
    State.faultRecordOk { s with status := .faulted g } = true := by
  cases i with
  | trap v =>
    obtain ⟨hw, rfl⟩ := unwired_of_instrGap_trap hg
    exact congrArg not hw
  | rti | res =>
    cases hg
    exact hwf
  | _ => cases hg

/-- An instruction keeps the invariant of a RUNNING state. -/
theorem exec_keeps_inv {i : Instr} {s t : State} (hi : i.wf = true) (hs : s.status = .running) (hwf : s.mem.wf = true)
    (h : exec i s = .next t) : t.Inv := by
  have hmem : t.mem.wf = true := by
    rw [(execFrame_of_exec h).mem]
    exact accesses_wf i hwf
  refine ⟨hmem, ?_⟩
  cases hg : instrGap i s with
  | none => exact faultRecordOk_of_running ((exec_status_of_no_gap h hg).trans hs)
  | some g =>
    obtain rfl := Host.Outcome.next.inj ((exec_of_gap hg).symm.trans h)
    exact faultRecordOk_of_gap hi hg

/-- Settles O47: a FAULTED step changes nothing, and a RUNNING one runs a well-formed instruction in a RUNNING state with
canonical memory. -/
theorem stepKeepsInvariant : Obligations.StepKeepsInvariant := by
  intro s t hinv h
  obtain ⟨-, rfl⟩ | ⟨hs, hexec⟩ := step_inversion h
  · exact hinv
  · exact exec_keeps_inv (wf_decodeWord _) ((fetchState_status s).trans hs) (fetchState_wf hinv.memWf) hexec

/-- Settles O48: memory is empty and no fault is recorded. -/
theorem resetMeetsInvariant : Obligations.ResetMeetsInvariant :=
  ⟨rfl, faultRecordOk_of_running rfl⟩

/-- A loader write does not touch the fault record. -/
theorem loadWrite_inv {s : State} (a v : Word) (h : s.Inv) : (loadWrite a v s).Inv :=
  ⟨poke_wf h.memWf, h.faultOk⟩

/-- Every move of the host leads to the invariant, from any state before a reset and from a state with it otherwise. -/
theorem hostMove_inv {p q : HostPhase} {s t : State} (h : HostMove p s q t) (hinv : p ≠ .beforeReset → s.Inv) : t.Inv := by
  obtain ⟨-, rfl⟩ | ⟨rfl, -, a, v, rfl⟩ | ⟨hp, -, hstep⟩ := hostMove_cases h
  · exact resetPort_inv s
  · exact loadWrite_inv a v (hinv (by decide))
  · exact stepKeepsInvariant s t (hinv hp) hstep

theorem hostReaches_inv {p : HostPhase} {s : State} (h : HostReaches p s) : p ≠ .beforeReset → s.Inv := by
  induction h with
  | start s => exact fun hp => absurd rfl hp
  | move _ hm ih => exact fun _ => hostMove_inv hm ih

/-- Settles O49, by induction on the host's moves. -/
theorem reachableMeetsInvariant : Obligations.ReachableMeetsInvariant :=
  fun _ ⟨_, hp, h⟩ => hostReaches_inv h hp

/-! ### The reset port and the loader -/

theorem sameRegs_resetPort (s : State) : SameRegs State.reset (resetPort s) := getReg_congr rfl

theorem peek_resetPort (a : Word) (s : State) : peek a (resetPort s) = 0x0000#16 := rfl

/-- Settles O51: the registers and the cells by their lemmas, the other fields as `resetPort` gives them. -/
theorem resetPortValues : Obligations.ResetPortValues :=
  fun s => ⟨sameRegs_resetPort s, rfl, rfl, fun a => peek_resetPort a s, rfl, rfl, rfl, rfl⟩

theorem lastWrite_cons (a b v : Word) (image : List (Word × Word)) :
    lastWrite a ((b, v) :: image) = (lastWrite a image).or (if a = b then some v else none) := by
  rw [lastWrite]
  cases lastWrite a image <;> rfl

/-- The loader's writes leave each cell the last word written to it, by induction on the image. -/
theorem peek_loadImage (a : Word) (image : List (Word × Word)) {s : State} (hwf : s.mem.wf = true) :
    peek a (loadImage image s) = (lastWrite a image).getD (peek a s) := by
  induction image generalizing s with
  | nil => rfl
  | cons c image ih =>
    obtain ⟨b, v⟩ := c
    rw [loadImage_cons, loadWrite_eq, ih (poke_wf hwf), lastWrite_cons]
    cases lastWrite a image with
    | some w => rfl
    | none =>
      by_cases hab : a = b
      · subst hab
        simp [peek_poke_same hwf]
      · simp [hab, peek_poke_ne hwf hab]

/-- Settles O52: the cells by `peek_loadImage`, everything else because the loader's writes change memory only. -/
theorem lastLoadWins : Obligations.LastLoadWins := by
  refine ⟨fun s image a => ⟨?_, ?_⟩, fun params keys image => rfl⟩
  · rw [peek_loadImage a image (resetPort_inv s).memWf, peek_resetPort]
  · obtain ⟨m, hm⟩ := loadImage_frame image (resetPort s)
    rw [hm]
    exact ⟨sameRegs_resetPort s, rfl, rfl, rfl, rfl, rfl, rfl⟩

/-- Loads are moves of the host until its first step. -/
theorem hostReaches_loadImage (image : List (Word × Word)) {s : State} (h : HostReaches .loading s) :
    HostReaches .loading (loadImage image s) := by
  induction image generalizing s with
  | nil => exact h
  | cons c image ih => exact ih (h.move (.load c.1 c.2 s))

/-- Settles O53: the moves a host makes are built up, and the moves of a phase are read off `hostMove_cases`. -/
theorem hostMovesAfterReset : Obligations.HostMovesAfterReset := by
  refine ⟨fun s image => ?_, fun s t q h => ?_, fun s t q h => ?_⟩
  · have hload := hostReaches_loadImage image ((HostReaches.start s).move (.reset _ s))
    obtain ⟨t, ht⟩ := everyStepCompletes (loadImage image (resetPort s))
    have hphase : HostPhase.loading ≠ .beforeReset := by decide
    exact ⟨hload, ⟨.loading, hphase, hload⟩, t, ht, .stepping, by decide, hload.move (.step hphase ht)⟩
  · obtain hreset | ⟨hp, -⟩ | ⟨-, hstep⟩ := hostMove_cases h
    · exact .inl hreset
    · exact absurd hp (by decide)
    · exact .inr hstep
  · obtain hreset | ⟨hp, -⟩ | ⟨hp, -⟩ := hostMove_cases h
    · exact hreset
    · exact absurd hp (by decide)
    · exact absurd rfl hp

end Sys2Proof.Machine

end
